-- ==== Sys2Proof/Word.lean ====
section
/-! DEFINITION. The word types of the unit: the command word, the operand buses and the widths of the three formats. -/

namespace Sys2Proof

/-- The 8-bit command word `cmd` (R40). -/
abbrev CmdWord := BitVec 8

/-- A 64-bit bus: `A`, `B` or `R.val` (R12, R172). A packed float of either format is carried in this form, its bits
above `8 * SIZE(f)` being 0 (R21). -/
abbrev Bus := BitVec 64

/-- The 2 bytes of an Integer (R22). -/
abbrev IntBits := BitVec 16

/-- The 4 bytes of a Single, byte 0 least significant (R24). -/
abbrev SngBits := BitVec 32

/-- The 8 bytes of a Double, byte 0 least significant (R25). -/
abbrev DblBits := BitVec 64

end Sys2Proof
end

