-- ==== Sys2Proof/Config.lean ====
section
/-! DEFINITION. What an implementation fixes: the float formats' parameters (R5) and the three functions the source withholds (R6). -/

namespace Sys2Proof

/-- The two float formats of R5. -/
inductive Fmt where
  | sng
  | dbl
deriving DecidableEq, Repr

/-- The legacy subtraction correction `SUBQ` before its contract is applied. A free value: it has no body, so nothing
can be proved of it (R6, R95, U1; log 8). -/
opaque Config.subqRaw : Fmt → Nat → Nat

/-- The legacy nibble correction `MULQ` before its contract is applied. A free value (R6, R103, U2; log 8). -/
opaque Config.mulqRaw : Fmt → Nat → Nat

/-- The quotient recurrence `DIVQ` before its contract is applied. A free value (R6, R113, U3; log 8). -/
opaque Config.divqRaw : Fmt → Nat → Nat → Nat

end Sys2Proof
end

