-- ==== Sys2Proof/Syntax.lean ====
section
/-! DEFINITION. The transactions of the command port and the 49 commands, each with its operands. -/

namespace Sys2Proof

/-- The type tags of R42. The fourth code, `11`, is reserved and is no tag. -/
inductive Tag where
  | int
  | sng
  | dbl
deriving DecidableEq, Repr

/-- The operations of R41. -/
inductive Op where
  | add | sub | mul | div | mod | neg | gt | eq | cvt | cvtu | rnrm
deriving DecidableEq, Repr

/-- What the host presents with one command (R40): the command word and the two operand buses. -/
structure Transaction where
  cmd : CmdWord
  a   : Bus
  b   : Bus
deriving DecidableEq, Repr

/-- A decoded command with its operands, one constructor per row of R44 in the table's order. The suffix names the
operand types in order; an operand has the width of its type (R43), and a command that ignores bus `B` has no second
operand. The operands of RNRM are those of R85: mantissa, exponent bits, sign. -/
inductive Instr where
  | iadd   (a b : IntBits)
  | faddS  (a b : SngBits)
  | faddSD (a : SngBits) (b : DblBits)
  | faddDS (a : DblBits) (b : SngBits)
  | faddD  (a b : DblBits)
  | isub   (a b : IntBits)
  | fsubS  (a b : SngBits)
  | fsubSD (a : SngBits) (b : DblBits)
  | fsubDS (a : DblBits) (b : SngBits)
  | fsubD  (a b : DblBits)
  | fmulS  (a b : SngBits)
  | fmulSD (a : SngBits) (b : DblBits)
  | fmulDS (a : DblBits) (b : SngBits)
  | fmulD  (a b : DblBits)
  | idiv   (a b : IntBits)
  | fdivS  (a b : SngBits)
  | fdivSD (a : SngBits) (b : DblBits)
  | fdivDS (a : DblBits) (b : SngBits)
  | fdivD  (a b : DblBits)
  | imod   (a b : IntBits)
  | ineg   (a : IntBits)
  | igt    (a b : IntBits)
  | fgtIS  (a : IntBits) (b : SngBits)
  | fgtID  (a : IntBits) (b : DblBits)
  | fgtSI  (a : SngBits) (b : IntBits)
  | fgtS   (a b : SngBits)
  | fgtSD  (a : SngBits) (b : DblBits)
  | fgtDI  (a : DblBits) (b : IntBits)
  | fgtDS  (a : DblBits) (b : SngBits)
  | fgtD   (a b : DblBits)
  | ieq    (a b : IntBits)
  | feqIS  (a : IntBits) (b : SngBits)
  | feqID  (a : IntBits) (b : DblBits)
  | feqSI  (a : SngBits) (b : IntBits)
  | feqS   (a b : SngBits)
  | feqSD  (a : SngBits) (b : DblBits)
  | feqDI  (a : DblBits) (b : IntBits)
  | feqDS  (a : DblBits) (b : SngBits)
  | feqD   (a b : DblBits)
  | i2fS   (a : IntBits)
  | i2fD   (a : IntBits)
  | f2iS   (a : SngBits)
  | f2iD   (a : DblBits)
  | s2d    (a : SngBits)
  | d2s    (a : DblBits)
  | f2iuS  (a : SngBits)
  | f2iuD  (a : DblBits)
  | rnrmS  (man : BitVec 32) (exp : BitVec 16) (neg : Bool)
  | rnrmD  (man : BitVec 64) (exp : BitVec 16) (neg : Bool)
deriving DecidableEq, Repr

end Sys2Proof
end

