-- ==== Sys2Proof/WellFormed.lean ====
section
/-! DEFINITION. Which transactions are well formed: the legal command words as the prose of R47 sorts them, and the canonical form of the buses (R43). -/

namespace Sys2Proof

/-- The classes of illegal words that R47 names, in its order. -/
inductive IllegalWord where
  /-- `op` in `0xB` to `0xF`. -/
  | reservedOp
  /-- `ta = 11` or `tb = 11`. -/
  | reservedTag
  /-- MUL with an Integer operand. -/
  | mulInteger
  /-- MOD with a float tag. -/
  | modFloat
  /-- NEG with a float tag. -/
  | negFloat
  /-- NEG of an Integer with `tb` not `00`. -/
  | negSecondTag
  /-- ADD, SUB or DIV with exactly one Integer operand. -/
  | mixedArithmetic
  /-- CVT with `ta = tb`. -/
  | cvtSameType
  /-- CVTU with `ta` Integer or `tb` not Integer. -/
  | cvtuOperands
  /-- RNRM with `ta` not `00` or `tb` Integer. -/
  | rnrmTags
deriving DecidableEq, Repr

namespace WellFormed

/-- `cmd[7:4]` as a number (R40). -/
def opCode (c : CmdWord) : Nat := c.toNat / 16

/-- `cmd[3:2]` as a number (R40). -/
def taCode (c : CmdWord) : Nat := c.toNat / 4 % 4

/-- `cmd[1:0]` as a number (R40). -/
def tbCode (c : CmdWord) : Nat := c.toNat % 4

/-- The class of R47 a word falls in, `none` for a legal word. A check on each line; the first that holds decides. -/
def illegalClass (c : CmdWord) : Option IllegalWord :=
  let op := opCode c
  let ta := taCode c
  let tb := tbCode c
  if 0xB ≤ op then some .reservedOp
  else if ta = 3 ∨ tb = 3 then some .reservedTag
  else if op = 0x2 ∧ (ta = 0 ∨ tb = 0) then some .mulInteger
  else if op = 0x4 ∧ (ta ≠ 0 ∨ tb ≠ 0) then some .modFloat
  else if op = 0x5 ∧ ta ≠ 0 then some .negFloat
  else if op = 0x5 ∧ tb ≠ 0 then some .negSecondTag
  else if (op = 0x0 ∨ op = 0x1 ∨ op = 0x3) ∧ ((ta = 0) ≠ (tb = 0)) then some .mixedArithmetic
  else if op = 0x8 ∧ ta = tb then some .cvtSameType
  else if op = 0x9 ∧ (ta = 0 ∨ tb ≠ 0) then some .cvtuOperands
  else if op = 0xA ∧ (ta ≠ 0 ∨ tb = 0) then some .rnrmTags
  else none

/-- Bits of an operand whose tag has this code: `8 * SIZE` (R5). -/
def tagBits (code : Nat) : Nat :=
  if code = 0 then 16 else if code = 1 then 32 else 64

/-- How many low bits of bus `A` the word's command uses (R43; RNRM: R85). -/
def usedA (c : CmdWord) : Nat :=
  if opCode c = 0xA then tagBits (tbCode c) else tagBits (taCode c)

/-- How many low bits of bus `B` the word's command uses: none for NEG, CVT and CVTU, 17 for RNRM (R43, R85). -/
def usedB (c : CmdWord) : Nat :=
  if opCode c = 0xA then 17
  else if opCode c = 0x5 ∨ opCode c = 0x8 ∨ opCode c = 0x9 then 0
  else tagBits (tbCode c)

end WellFormed

/-- The word is one of the 49 commands (R44, R47). -/
def Transaction.legal (t : Transaction) : Bool :=
  (WellFormed.illegalClass t.cmd).isNone

/-- Bus `A` holds 0 above the bits its command uses. The unit ignores those bits (R43, U7); 0 is the canonical choice. -/
def Transaction.canonicalA (t : Transaction) : Bool :=
  decide (t.a.toNat < 2 ^ WellFormed.usedA t.cmd)

/-- Bus `B` holds 0 above the bits its command uses. -/
def Transaction.canonicalB (t : Transaction) : Bool :=
  decide (t.b.toNat < 2 ^ WellFormed.usedB t.cmd)

/-- A legal word on canonical buses: exactly what the encoder writes. -/
def Transaction.wellFormed (t : Transaction) : Bool :=
  t.legal && t.canonicalA && t.canonicalB

end Sys2Proof
end

