-- ==== Sys2Proof/Decode.lean ====
section
/-! DEFINITION. The decoder: from a transaction to a command with its operands, or to the class of illegal word. After it the encoder, written from the byte column of R44, and the numbering of a transaction's bits. -/

namespace Sys2Proof

/-- The operation codes of R41; `0xB` to `0xF` are reserved. -/
def opOf (c : BitVec 4) : Option Op :=
  match c.toNat with
  | 0x0 => some .add
  | 0x1 => some .sub
  | 0x2 => some .mul
  | 0x3 => some .div
  | 0x4 => some .mod
  | 0x5 => some .neg
  | 0x6 => some .gt
  | 0x7 => some .eq
  | 0x8 => some .cvt
  | 0x9 => some .cvtu
  | 0xA => some .rnrm
  | _ => none

/-- The type tags of R42; `11` is reserved. -/
def tagOf (c : BitVec 2) : Option Tag :=
  match c.toNat with
  | 0b00 => some .int
  | 0b01 => some .sng
  | 0b10 => some .dbl
  | _ => none

/-- The code of a type tag (R42). -/
def Tag.code : Tag → BitVec 2
  | .int => 0b00
  | .sng => 0b01
  | .dbl => 0b10

/-- `cmd[7:4]` (R40). -/
def CmdWord.opField (c : CmdWord) : BitVec 4 := c.extractLsb' 4 4

/-- `cmd[3:2]` (R40). -/
def CmdWord.taField (c : CmdWord) : BitVec 2 := c.extractLsb' 2 2

/-- `cmd[1:0]` (R40). -/
def CmdWord.tbField (c : CmdWord) : BitVec 2 := c.extractLsb' 0 2

/-- An Integer operand: the low 2 bytes of its bus (R43, R60). -/
def busInt (x : Bus) : IntBits := x.extractLsb' 0 16

/-- A Single operand: the low 4 bytes of its bus (R43). -/
def busSng (x : Bus) : SngBits := x.extractLsb' 0 32

/-- A Double operand: the whole bus (R43). -/
def busDbl (x : Bus) : DblBits := x

/-- The exponent bits of RNRM: `B[15:0]` (R85). -/
def busExp (b : Bus) : BitVec 16 := b.extractLsb' 0 16

/-- The sign of RNRM: `B[16]` (R85). -/
def busNeg (b : Bus) : Bool := b.getLsbD 16

/-- The command a legal combination of operation and tags names (R44), with the operands read off the buses (R43,
R85); an illegal combination is rejected by its class (R47). -/
def Instr.ofFields (op : Op) (ta tb : Tag) (a b : Bus) : Except IllegalWord Instr :=
  match op, ta, tb with
  | .add, .int, .int => .ok (.iadd (busInt a) (busInt b))
  | .add, .sng, .sng => .ok (.faddS (busSng a) (busSng b))
  | .add, .sng, .dbl => .ok (.faddSD (busSng a) (busDbl b))
  | .add, .dbl, .sng => .ok (.faddDS (busDbl a) (busSng b))
  | .add, .dbl, .dbl => .ok (.faddD (busDbl a) (busDbl b))
  | .add, _, _ => .error .mixedArithmetic
  | .sub, .int, .int => .ok (.isub (busInt a) (busInt b))
  | .sub, .sng, .sng => .ok (.fsubS (busSng a) (busSng b))
  | .sub, .sng, .dbl => .ok (.fsubSD (busSng a) (busDbl b))
  | .sub, .dbl, .sng => .ok (.fsubDS (busDbl a) (busSng b))
  | .sub, .dbl, .dbl => .ok (.fsubD (busDbl a) (busDbl b))
  | .sub, _, _ => .error .mixedArithmetic
  | .mul, .sng, .sng => .ok (.fmulS (busSng a) (busSng b))
  | .mul, .sng, .dbl => .ok (.fmulSD (busSng a) (busDbl b))
  | .mul, .dbl, .sng => .ok (.fmulDS (busDbl a) (busSng b))
  | .mul, .dbl, .dbl => .ok (.fmulD (busDbl a) (busDbl b))
  | .mul, _, _ => .error .mulInteger
  | .div, .int, .int => .ok (.idiv (busInt a) (busInt b))
  | .div, .sng, .sng => .ok (.fdivS (busSng a) (busSng b))
  | .div, .sng, .dbl => .ok (.fdivSD (busSng a) (busDbl b))
  | .div, .dbl, .sng => .ok (.fdivDS (busDbl a) (busSng b))
  | .div, .dbl, .dbl => .ok (.fdivD (busDbl a) (busDbl b))
  | .div, _, _ => .error .mixedArithmetic
  | .mod, .int, .int => .ok (.imod (busInt a) (busInt b))
  | .mod, _, _ => .error .modFloat
  | .neg, .int, .int => .ok (.ineg (busInt a))
  | .neg, .int, _ => .error .negSecondTag
  | .neg, _, _ => .error .negFloat
  | .gt, .int, .int => .ok (.igt (busInt a) (busInt b))
  | .gt, .int, .sng => .ok (.fgtIS (busInt a) (busSng b))
  | .gt, .int, .dbl => .ok (.fgtID (busInt a) (busDbl b))
  | .gt, .sng, .int => .ok (.fgtSI (busSng a) (busInt b))
  | .gt, .sng, .sng => .ok (.fgtS (busSng a) (busSng b))
  | .gt, .sng, .dbl => .ok (.fgtSD (busSng a) (busDbl b))
  | .gt, .dbl, .int => .ok (.fgtDI (busDbl a) (busInt b))
  | .gt, .dbl, .sng => .ok (.fgtDS (busDbl a) (busSng b))
  | .gt, .dbl, .dbl => .ok (.fgtD (busDbl a) (busDbl b))
  | .eq, .int, .int => .ok (.ieq (busInt a) (busInt b))
  | .eq, .int, .sng => .ok (.feqIS (busInt a) (busSng b))
  | .eq, .int, .dbl => .ok (.feqID (busInt a) (busDbl b))
  | .eq, .sng, .int => .ok (.feqSI (busSng a) (busInt b))
  | .eq, .sng, .sng => .ok (.feqS (busSng a) (busSng b))
  | .eq, .sng, .dbl => .ok (.feqSD (busSng a) (busDbl b))
  | .eq, .dbl, .int => .ok (.feqDI (busDbl a) (busInt b))
  | .eq, .dbl, .sng => .ok (.feqDS (busDbl a) (busSng b))
  | .eq, .dbl, .dbl => .ok (.feqD (busDbl a) (busDbl b))
  | .cvt, .int, .sng => .ok (.i2fS (busInt a))
  | .cvt, .int, .dbl => .ok (.i2fD (busInt a))
  | .cvt, .sng, .int => .ok (.f2iS (busSng a))
  | .cvt, .dbl, .int => .ok (.f2iD (busDbl a))
  | .cvt, .sng, .dbl => .ok (.s2d (busSng a))
  | .cvt, .dbl, .sng => .ok (.d2s (busDbl a))
  | .cvt, _, _ => .error .cvtSameType
  | .cvtu, .sng, .int => .ok (.f2iuS (busSng a))
  | .cvtu, .dbl, .int => .ok (.f2iuD (busDbl a))
  | .cvtu, _, _ => .error .cvtuOperands
  | .rnrm, .int, .sng => .ok (.rnrmS (busSng a) (busExp b) (busNeg b))
  | .rnrm, .int, .dbl => .ok (.rnrmD (busDbl a) (busExp b) (busNeg b))
  | .rnrm, _, _ => .error .rnrmTags

/-- The decoder: total on every transaction, an illegal word rejected by the class of R47 it falls in. -/
def decode (t : Transaction) : Except IllegalWord Instr :=
  match opOf t.cmd.opField, tagOf t.cmd.taField, tagOf t.cmd.tbField with
  | none, _, _ => .error .reservedOp
  | some _, none, _ => .error .reservedTag
  | some _, some _, none => .error .reservedTag
  | some op, some ta, some tb => Instr.ofFields op ta tb t.a t.b

/-- An operand on its bus, the bits above it 0 (R21). -/
def onBus {n : Nat} (x : BitVec n) : Bus := x.setWidth 64

/-- Bus `B` of RNRM: exponent bits in `[15:0]`, sign in `[16]` (R85). -/
def rnrmBusB (exp : BitVec 16) (neg : Bool) : Bus :=
  onBus (BitVec.ofBool neg ++ exp)

/-- The transaction that presents a command: its byte of R44 and its operands, every unused bus bit 0. -/
def encode : Instr → Transaction
  | .iadd a b   => ⟨0x00, onBus a, onBus b⟩
  | .faddS a b  => ⟨0x05, onBus a, onBus b⟩
  | .faddSD a b => ⟨0x06, onBus a, onBus b⟩
  | .faddDS a b => ⟨0x09, onBus a, onBus b⟩
  | .faddD a b  => ⟨0x0A, onBus a, onBus b⟩
  | .isub a b   => ⟨0x10, onBus a, onBus b⟩
  | .fsubS a b  => ⟨0x15, onBus a, onBus b⟩
  | .fsubSD a b => ⟨0x16, onBus a, onBus b⟩
  | .fsubDS a b => ⟨0x19, onBus a, onBus b⟩
  | .fsubD a b  => ⟨0x1A, onBus a, onBus b⟩
  | .fmulS a b  => ⟨0x25, onBus a, onBus b⟩
  | .fmulSD a b => ⟨0x26, onBus a, onBus b⟩
  | .fmulDS a b => ⟨0x29, onBus a, onBus b⟩
  | .fmulD a b  => ⟨0x2A, onBus a, onBus b⟩
  | .idiv a b   => ⟨0x30, onBus a, onBus b⟩
  | .fdivS a b  => ⟨0x35, onBus a, onBus b⟩
  | .fdivSD a b => ⟨0x36, onBus a, onBus b⟩
  | .fdivDS a b => ⟨0x39, onBus a, onBus b⟩
  | .fdivD a b  => ⟨0x3A, onBus a, onBus b⟩
  | .imod a b   => ⟨0x40, onBus a, onBus b⟩
  | .ineg a     => ⟨0x50, onBus a, 0⟩
  | .igt a b    => ⟨0x60, onBus a, onBus b⟩
  | .fgtIS a b  => ⟨0x61, onBus a, onBus b⟩
  | .fgtID a b  => ⟨0x62, onBus a, onBus b⟩
  | .fgtSI a b  => ⟨0x64, onBus a, onBus b⟩
  | .fgtS a b   => ⟨0x65, onBus a, onBus b⟩
  | .fgtSD a b  => ⟨0x66, onBus a, onBus b⟩
  | .fgtDI a b  => ⟨0x68, onBus a, onBus b⟩
  | .fgtDS a b  => ⟨0x69, onBus a, onBus b⟩
  | .fgtD a b   => ⟨0x6A, onBus a, onBus b⟩
  | .ieq a b    => ⟨0x70, onBus a, onBus b⟩
  | .feqIS a b  => ⟨0x71, onBus a, onBus b⟩
  | .feqID a b  => ⟨0x72, onBus a, onBus b⟩
  | .feqSI a b  => ⟨0x74, onBus a, onBus b⟩
  | .feqS a b   => ⟨0x75, onBus a, onBus b⟩
  | .feqSD a b  => ⟨0x76, onBus a, onBus b⟩
  | .feqDI a b  => ⟨0x78, onBus a, onBus b⟩
  | .feqDS a b  => ⟨0x79, onBus a, onBus b⟩
  | .feqD a b   => ⟨0x7A, onBus a, onBus b⟩
  | .i2fS a     => ⟨0x81, onBus a, 0⟩
  | .i2fD a     => ⟨0x82, onBus a, 0⟩
  | .f2iS a     => ⟨0x84, onBus a, 0⟩
  | .f2iD a     => ⟨0x88, onBus a, 0⟩
  | .s2d a      => ⟨0x86, onBus a, 0⟩
  | .d2s a      => ⟨0x89, onBus a, 0⟩
  | .f2iuS a    => ⟨0x94, onBus a, 0⟩
  | .f2iuD a    => ⟨0x98, onBus a, 0⟩
  | .rnrmS m e n => ⟨0xA1, onBus m, rnrmBusB e n⟩
  | .rnrmD m e n => ⟨0xA2, onBus m, rnrmBusB e n⟩

/-- A transaction from one number. DESIGN CHOICE (log 9): the ports are parallel, so the spec has no such numbering;
the model takes the command byte first, then the 8 bytes of `A`, then the 8 bytes of `B`, each in bus order. -/
def Transaction.ofNat (n : Nat) : Transaction :=
  ⟨BitVec.ofNat 8 n, BitVec.ofNat 64 (n / 2 ^ 8), BitVec.ofNat 64 (n / 2 ^ 72)⟩

/-- The number of a transaction in that numbering, 136 bits. -/
def Transaction.toNat (t : Transaction) : Nat :=
  t.cmd.toNat + t.a.toNat * 2 ^ 8 + t.b.toNat * 2 ^ 72

/-- The command the decoder reads from the bits of `w` below `nbits`, every bit above being 0: a row of the opcode
table gives the 8 bits of the command word, so its operands are 0. -/
def decodeTableWord (nbits w : Nat) : Option Instr :=
  (decode (Transaction.ofNat (w % 2 ^ nbits))).toOption

end Sys2Proof
end

