-- ==== Sys2Proof/Machine/State.lean ====
section
/-! DEFINITION. The state of the unit: the result latch R and the command in progress, with the host's inputs still to come; the reasons a step can stop; the state after reset. -/

namespace Sys2Proof.Machine

/-- The result latch `R`, the only architectural state (R12). -/
structure Latch where
  /-- 1 once any command has completed since reset. -/
  valid : Bool
  /-- The result value, zero-extended above the bytes of its tag. -/
  val   : Bus
  /-- Format of `val`: `00` INT, `01` SNG, `10` DBL. -/
  tag   : BitVec 2
  /-- Flag bit 0: Overflow was signalled. -/
  ovf   : Bool
  /-- Flag bit 1: DivisionByZero was signalled. -/
  dbz   : Bool
  /-- Flag bit 2: the command word was illegal. -/
  ill   : Bool
  /-- Flag bit 3: the truth value of a comparison. -/
  t     : Bool
deriving DecidableEq, Repr

/-- `R.flags = T ++ ILL ++ DBZ ++ OVF` (R12): a view, not a second home. -/
def Latch.flags (l : Latch) : BitVec 4 :=
  BitVec.ofBool l.t ++ BitVec.ofBool l.ill ++ BitVec.ofBool l.dbz ++ BitVec.ofBool l.ovf

/-- The latch after reset (R18). -/
def Latch.reset : Latch :=
  { valid := false, val := 0, tag := 0b00, ovf := false, dbz := false, ill := false, t := false }

/-- One input from outside the unit (R172, R170, R176). Log 2 and log 4 say how the step takes them. -/
inductive HostInput where
  /-- One agent holds `cmd_valid = 1` with this transaction until it is accepted. -/
  | issue (t : Transaction)
  /-- Two agents drive `cmd_valid` in the same cycle (R176). -/
  | contend (t u : Transaction)
  /-- The host waits until `cmd_ready = 1` (R171 obligation 2, R173). -/
  | waitReady
  /-- The host uses `R` as a result (R18, R34). -/
  | read
  /-- The `reset` input is asserted (R170). -/
  | reset
deriving DecidableEq, Repr

/-- The state of the machine. -/
structure State where
  /-- The result latch `R` (R12). -/
  latch      : Latch
  /-- The command in progress, as sampled at acceptance; `none` between commands, so that no operand survives its
  command (R10, R172, R173, R175; log 1). -/
  inProgress : Option Transaction
  /-- The model's own field: the inputs still to come, oldest first (log 2). -/
  host       : List HostInput
deriving DecidableEq, Repr

/-- `cmd_ready`: 1 exactly when no command is in progress (R173). -/
def State.cmdReady (s : State) : Bool := s.inProgress.isNone

/-- After reset the latch holds its reset values and no command is in progress (R18, R170). The list of inputs is
empty: DESIGN CHOICE (log 2, log 10). -/
def State.reset : State :=
  { latch := Latch.reset, inProgress := none, host := [] }

/-- Why a step can stop with a fault. -/
inductive Fault where
  /-- Raised by a host read of `R` while `R.valid = 0`: "a model should treat a read of R with R.valid = 0 as a fault
  of the host" (R18, U6). Safe: the machine stops where the hardware shows zeros (log 5). -/
  | readBeforeValid
deriving DecidableEq, Repr

/-- Why a step can be refused. -/
inductive Refusal where
  /-- Raised by an arm of `exec` whose instruction has no meaning yet; no arm raises it now. Safe. -/
  | notModelled (mnemonic : String)
  /-- Raised by the step when two agents drive the command port in one cycle: "a model should give it no meaning
  (refuse), not pick a winner" (R176, U4). Safe (log 6). -/
  | portContention
deriving DecidableEq, Repr

end Sys2Proof.Machine
end

