-- ==== Sys2Proof/Machine/Format.lean ====
section
/-! DEFINITION. The number formats: parameters, fields of a packed value, the denormalized triple, packing, constants, and the two exact conversions that promotion uses. -/

namespace Sys2Proof

/-- The tag of a float format (R5). -/
def Fmt.tag : Fmt → Tag
  | .sng => .sng
  | .dbl => .dbl

/-- `SIZE(f)` of R5, in bytes. -/
def Tag.size : Tag → Nat
  | .int => 2
  | .sng => 4
  | .dbl => 8

/-- `W(f)`, the working width of a denormalized mantissa (R5). -/
def Fmt.W : Fmt → Nat
  | .sng => 32
  | .dbl => 64

/-- `M(f)`, the significand bits with the implicit leading bit (R5). -/
def Fmt.M : Fmt → Nat
  | .sng => 24
  | .dbl => 56

/-- `BIAS(f)` (R5). -/
def Fmt.bias : Fmt → Nat
  | .sng => 152
  | .dbl => 184

namespace Machine

/-- The exponent byte `x[W-1:W-8]` (R23). -/
def expb (f : Fmt) (x : Bus) : Nat := x.toNat / 2 ^ (f.W - 8) % 256

/-- The sign bit `x[W-9]` (R23). -/
def sgn (f : Fmt) (x : Bus) : Bool := x.getLsbD (f.W - 9)

/-- The fraction `x[W-10:0]`, `M(f)-1` bits (R23). -/
def frac (f : Fmt) (x : Bus) : Nat := x.toNat % 2 ^ (f.M - 1)

/-- A float is zero when its exponent byte is 0, whatever its other bytes (R26, C1). -/
def isZero (f : Fmt) (x : Bus) : Bool := expb f x == 0

/-- The significand with its implicit leading bit (R27). -/
def sig (f : Fmt) (x : Bus) : Nat := 2 ^ (f.M - 1) + frac f x

/-- A denormalized working value `(exp, man, neg)` (R28). The exponent is unbounded (R87). -/
structure Triple where
  exp : Int
  man : Nat
  neg : Bool
deriving DecidableEq, Repr

/-- Unpacking a nonzero value: the implicit bit restored, a guard byte of 0 (R29). -/
def den (f : Fmt) (x : Bus) : Triple :=
  { exp := expb f x, man := sig f x <<< 8, neg := sgn f x }

/-- Packing (R30). -/
def pack (f : Fmt) (e sig : Nat) (neg : Bool) : Bus :=
  BitVec.ofNat 64 ((e <<< (f.W - 8)) ||| (neg.toNat <<< (f.W - 9)) ||| (sig % 2 ^ (f.M - 1)))

/-- The canonical zero (R26). -/
def zero (_ : Fmt) : Bus := 0

/-- The maximum-magnitude constants, by the table of R31. -/
def maxMag (f : Fmt) (neg : Bool) : Bus :=
  match f, neg with
  | .sng, false => 0xFF7FFFFF
  | .sng, true  => 0xFFFFFFFF
  | .dbl, false => 0xFF7FFFFFFFFFFFFF
  | .dbl, true  => 0xFFFFFFFFFFFFFFFF

/-- Sign inversion: bit `W-9` is inverted and nothing else (R91). -/
def fneg (f : Fmt) (x : Bus) : Bus := x ^^^ BitVec.ofNat 64 (2 ^ (f.W - 9))

/-- The magnitude word: bit `W-9` cleared (R121). -/
def absw (f : Fmt) (x : Bus) : Bus := x &&& ~~~ (BitVec.ofNat 64 (2 ^ (f.W - 9)))

/-- Byte `k` of a bus (R7, R21). -/
def byteOf (x : Bus) (k : Nat) : Nat := x.toNat / 2 ^ (8 * k) % 256

/-- Single to Double by a plain byte move (R134). -/
def widen (x : SngBits) : Bus := x.extractLsb' 24 8 ++ x.extractLsb' 0 24 ++ 0#32

/-- Integer to float, exact (R130). -/
def i2f (f : Fmt) (n : IntBits) : Bus :=
  let v := n.toInt
  if v = 0 then zero f
  else
    let m := v.natAbs
    let z := (f.M - 1) - m.log2
    pack f (f.bias - z) (m <<< z) (decide (v < 0))

end Machine

end Sys2Proof
end

