-- ==== Sys2Proof/Machine/Params.lean ====
section
/-! DEFINITION. The open parameters SUBQ, MULQ, DIVQ with the contract of R6: the machine's own, opaque under that contract, and the spec's defaults. -/

namespace Sys2Proof.Machine

/-- `man` is a normalized mantissa of format `f`: in `[2^(W-1), 2^W)` (R28). -/
abbrev Normalized (f : Fmt) (man : Nat) : Prop := 2 ^ (f.W - 1) ≤ man ∧ man < 2 ^ f.W

/-- The three functions the spec leaves open, with exactly the contract R6 states. A claim for every `Params` is a
claim for every choice of them. -/
structure Params where
  subq : Fmt → Nat → Nat
  mulq : Fmt → Nat → Nat
  divq : Fmt → Nat → Nat → Nat
  /-- `SUBQ(f, 0) = 0`. -/
  subq_zero : ∀ f, subq f 0 = 0
  /-- `SUBQ` answers a `W(f)`-bit natural. -/
  subq_lt : ∀ f m, m < 2 ^ f.W → subq f m < 2 ^ f.W
  /-- `MULQ` answers a `W(f)`-bit natural. -/
  mulq_lt : ∀ f m, m < 2 ^ f.W → mulq f m < 2 ^ f.W
  /-- `MULQ` keeps a normalized mantissa normalized. -/
  mulq_normalized : ∀ f m, Normalized f m → Normalized f (mulq f m)
  /-- `DIVQ` answers a `W(f)`-bit natural on mantissas. -/
  divq_lt : ∀ f ma mb, Normalized f ma → Normalized f mb → divq f ma mb < 2 ^ f.W

/-- The machine's `SUBQ`: any function under the contract, none in particular (R6; log 8). -/
def openSubq (f : Fmt) (m : Nat) : Nat :=
  if m = 0 then 0 else Config.subqRaw f m % 2 ^ f.W

/-- The machine's `MULQ`: any function under the contract (R6; log 8). -/
def openMulq (f : Fmt) (m : Nat) : Nat :=
  if 2 ^ (f.W - 1) ≤ m then 2 ^ (f.W - 1) + Config.mulqRaw f m % 2 ^ (f.W - 1)
  else Config.mulqRaw f m % 2 ^ f.W

/-- The machine's `DIVQ`: any function under the contract (R6; log 8). -/
def openDivq (f : Fmt) (ma mb : Nat) : Nat :=
  Config.divqRaw f ma mb % 2 ^ f.W

theorem openMulq_normalized (f : Fmt) (m : Nat) (h : Normalized f m) : Normalized f (openMulq f m) := by
  have hr : Config.mulqRaw f m % 2 ^ (f.W - 1) < 2 ^ (f.W - 1) := Nat.mod_lt _ (by positivity)
  have hw : 2 ^ f.W = 2 ^ (f.W - 1) + 2 ^ (f.W - 1) := by cases f <;> rfl
  simp only [openMulq, Normalized, if_pos h.1]
  omega

theorem openMulq_lt (f : Fmt) (m : Nat) (h : m < 2 ^ f.W) : openMulq f m < 2 ^ f.W := by
  by_cases hn : 2 ^ (f.W - 1) ≤ m
  · exact (openMulq_normalized f m ⟨hn, h⟩).2
  · simp only [openMulq, if_neg hn]
    exact Nat.mod_lt _ (by positivity)

/-- The machine's parameters. -/
def Params.ofUnit : Params where
  subq := openSubq
  mulq := openMulq
  divq := openDivq
  subq_zero := fun _ => rfl
  subq_lt := fun f m _ => by
    unfold openSubq
    split
    · positivity
    · exact Nat.mod_lt _ (by positivity)
  mulq_lt := openMulq_lt
  mulq_normalized := openMulq_normalized
  divq_lt := fun _ _ _ _ _ => Nat.mod_lt _ (by positivity)

/-- The default quotient of R113: exact and truncated at the working width. -/
def defaultDivq (f : Fmt) (ma mb : Nat) : Nat := ma * 2 ^ (f.W - 1) / mb

theorem defaultDivq_lt (f : Fmt) (ma mb : Nat) (ha : Normalized f ma) (hb : Normalized f mb) :
    defaultDivq f ma mb < 2 ^ f.W := by
  refine lt_of_le_of_lt ?_ ha.2
  refine Nat.div_le_of_le_mul ?_
  rw [Nat.mul_comm mb]
  exact Nat.mul_le_mul_left _ hb.1

/-- The spec's defaults (R6): `SUBQ` and `MULQ` the identity, `DIVQ` the exact truncated quotient. The machine does
not use them; the vectors of `95_test_vectors.md` that name a default hold under them. -/
def Params.default : Params where
  subq := fun _ m => m
  mulq := fun _ m => m
  divq := defaultDivq
  subq_zero := fun _ => rfl
  subq_lt := fun _ _ h => h
  mulq_lt := fun _ _ h => h
  mulq_normalized := fun _ _ h => h
  divq_lt := defaultDivq_lt

/-- The restoring long division of R113: `k` quotient bits, most significant first, from remainder `rem` and the bits
`q` found so far. -/
def restoringLoop (mb : Nat) : Nat → Nat → Nat → Nat
  | 0, _, q => q
  | k + 1, rem, q =>
    if mb ≤ rem then restoringLoop mb k ((rem - mb) <<< 1) (q <<< 1 ||| 1)
    else restoringLoop mb k (rem <<< 1) (q <<< 1)

/-- `DIVQ`'s default as the digit recurrence of R113: `W` bits starting from `rem = ma`, `q = 0`. -/
def restoringDivide (f : Fmt) (ma mb : Nat) : Nat := restoringLoop mb f.W ma 0

end Sys2Proof.Machine
end

