-- ==== Sys2Proof/Machine/Flags.lean ====
section
/-! DEFINITION. The condition a command reports and the four flags it becomes, and the bit-level overflow conditions of the integer adder. -/

namespace Sys2Proof.Machine

/-- What one command reports besides its value: at most one condition (R14, R156), or a comparison's truth value. -/
inductive Condition where
  | none
  | overflow
  | divisionByZero
  | illegal
  | truth (b : Bool)
deriving DecidableEq, Repr

/-- `R.OVF` (R151). -/
def Condition.ovf : Condition → Bool
  | .overflow => true
  | _ => false

/-- `R.DBZ` (R152). -/
def Condition.dbz : Condition → Bool
  | .divisionByZero => true
  | _ => false

/-- `R.ILL` (R153). -/
def Condition.ill : Condition → Bool
  | .illegal => true
  | _ => false

/-- `R.T` (R12). -/
def Condition.t : Condition → Bool
  | .truth b => b
  | _ => false

/-- The bit condition of IADD's Overflow: equal operand signs and a result sign that differs from theirs (R62). -/
def addOverflows (a b : IntBits) : Bool := a.msb == b.msb && (a + b).msb != a.msb

/-- The bit condition of ISUB's Overflow: different operand signs and a result sign that differs from the first's
(R63). -/
def subOverflows (a b : IntBits) : Bool := a.msb != b.msb && (a - b).msb != a.msb

/-- The conventional modulo adjusted to the dividend's sign, the second form of IMOD (R66). -/
def adjustedModulo (a b : Int) : Int :=
  let m := a - b * Int.fdiv a b
  if m ≠ 0 ∧ ((m < 0) ≠ (a < 0)) then m - b else m

/-- The three-step comparison of R67: signs, then the top byte without its sign bit, then the low byte. -/
def stepwiseGreater (a b : IntBits) : Bool :=
  if a.msb ≠ b.msb then !a.msb
  else if a.extractLsb' 8 7 ≠ b.extractLsb' 8 7 then decide (a.extractLsb' 8 7 > b.extractLsb' 8 7)
  else decide (a.extractLsb' 0 8 > b.extractLsb' 0 8)

end Sys2Proof.Machine
end

