-- ==== Sys2Proof/Machine/Ops.lean ====
section
/-! DEFINITION. The shared operations: the write of the result latch, the signals, the refusal of an illegal word, and what the port does on acceptance, reset and a read. -/

namespace Sys2Proof.Machine

/-- The whole latch as one command writes it: every field, `valid` with 1, no flag the condition does not set (R13). -/
def Latch.written (c : Condition) (tag : Tag) (v : Bus) : Latch :=
  { valid := true, val := v, tag := tag.code, ovf := c.ovf, dbz := c.dbz, ill := c.ill, t := c.t }

/-- `result(t, v)`: a value and no signal (R8). -/
def result (tag : Tag) (v : Bus) : Latch := Latch.written .none tag v

/-- A signal is a flag with a substitute value, the unit's exception: nothing is saved, no control is transferred and
the command completes like any other (R150, R157). -/
def signal (c : Condition) (tag : Tag) (v : Bus) : Latch := Latch.written c tag v

/-- `signal Overflow(t, v)` (R8, R151). -/
def signalOverflow (tag : Tag) (v : Bus) : Latch := signal .overflow tag v

/-- `signal DivisionByZero(t, v)` (R8, R152). -/
def signalDivisionByZero (tag : Tag) (v : Bus) : Latch := signal .divisionByZero tag v

/-- `refuse`: the unit's answer to an illegal word (R47, R153). -/
def refuse : Latch := signal .illegal .int 0

/-- A comparison: the truth value on `T`, an Integer 0 as value (R46). -/
def compared (b : Bool) : Latch := Latch.written (.truth b) .int 0

/-- A command completes: the latch is written, all of it at once, and the command is no longer in progress (R13, R34,
R173). The host's inputs are not touched. -/
def State.complete (s : State) (l : Latch) : State :=
  { s with latch := l, inProgress := none }

/-- A command is accepted: its word and buses are sampled, `cmd_ready` falls (R172, R173). -/
def State.accept (s : State) (t : Transaction) (rest : List HostInput) : State :=
  { s with inProgress := some t, host := rest }

/-- Reset: the latch at its reset values, a command in progress abandoned (R170). -/
def State.applyReset (_ : State) (rest : List HostInput) : State :=
  { State.reset with host := rest }

/-- The host reads `R`: no side effect (R34), and a fault while `R.valid = 0` (R18). -/
def State.hostRead (s : State) (rest : List HostInput) : Host.Outcome State Fault Refusal :=
  if s.latch.valid then .next { s with host := rest } else .fault .readBeforeValid

end Sys2Proof.Machine
end

