-- ==== Sys2Proof/Machine/Operands.lean ====
section
/-! DEFINITION. Operands with their types, and the promotion of two operands to the working format. -/

namespace Sys2Proof.Machine

/-- A packed operand with its type (R43). -/
inductive Operand where
  | int (n : IntBits)
  | sng (x : SngBits)
  | dbl (x : DblBits)
deriving DecidableEq, Repr

/-- The operand's type tag. -/
def Operand.tag : Operand → Tag
  | .int _ => .int
  | .sng _ => .sng
  | .dbl _ => .dbl

/-- The working format: Double when either operand is a Double, else Single (R45). -/
def workFmt (ta tb : Tag) : Fmt :=
  if ta = .dbl ∨ tb = .dbl then .dbl else .sng

/-- `conv`: the operand in the working format, exactly (R45). A Double is never narrowed: beside one the working
format is Double. -/
def conv (work : Fmt) : Operand → Bus
  | .int n => i2f work n
  | .sng x =>
    match work with
    | .sng => onBus x
    | .dbl => widen x
  | .dbl x => x

/-- Two operands promoted to one format. -/
structure Promoted where
  fmt : Fmt
  a   : Bus
  b   : Bus
deriving DecidableEq, Repr

/-- `prom` of R45. -/
def prom (x y : Operand) : Promoted :=
  let work := workFmt x.tag y.tag
  { fmt := work, a := conv work x, b := conv work y }

end Sys2Proof.Machine
end

