-- ==== Sys2Proof/Machine/Renormalizer.lean ====
section
/-! DEFINITION. fp_renormalizer: the function renorm of R81 and the commands RNRM.S and RNRM.D (R85). -/

namespace Sys2Proof.Machine

/-- Step 1 of R81 with at most `k` iterations: shift left until the mantissa reaches `2^(W-1)`. -/
def normalizeLoop (f : Fmt) : Nat → Triple → Triple
  | 0, t => t
  | k + 1, t =>
    if t.man < 2 ^ (f.W - 1) then normalizeLoop f k { t with man := t.man <<< 1, exp := t.exp - 1 } else t

/-- Step 1 of R81. A nonzero mantissa needs at most `W - 1` iterations (R82). -/
def normalize (f : Fmt) (t : Triple) : Triple := normalizeLoop f f.W t

/-- Whether step 2 of R81 rounds up: nearest on the guard byte, ties to even (R83). -/
def roundsUp (man : Nat) : Bool :=
  let g := man % 2 ^ 8
  let l := (man >>> 8) % 2
  decide (g > 0x80 ∨ (g = 0x80 ∧ l = 1))

/-- Steps 2 and 3 of R81: the rounded significand, in the place of the mantissa, with the exponent it ends with. -/
def roundSig (f : Fmt) (t : Triple) : Triple :=
  let s := (t.man >>> 8) + (roundsUp t.man).toNat
  if s ≥ 2 ^ f.M then { t with man := s >>> 1, exp := t.exp + 1 } else { t with man := s }

/-- Steps 4 and 5 of R81: the range check on the final exponent, then packing (C4). -/
def rangeCheck (f : Fmt) (t : Triple) : Latch :=
  if t.exp > 255 then signalOverflow f.tag (maxMag f t.neg)
  else if t.exp ≤ 0 then result f.tag (zero f)
  else result f.tag (pack f t.exp.toNat t.man t.neg)

/-- `renorm` (R80, R81). -/
def renorm (f : Fmt) (t : Triple) : Latch :=
  if t.man = 0 then result f.tag (zero f)
  else rangeCheck f (roundSig f (normalize f t))

/-- RNRM: the triple is the host's, its exponent sign-extended (R85). -/
def renormCommand (f : Fmt) (man : Nat) (exp : BitVec 16) (neg : Bool) : Latch :=
  renorm f { exp := exp.toInt, man := man, neg := neg }

def execRnrmS (man : BitVec 32) (exp : BitVec 16) (neg : Bool) (s : State) : Host.Outcome State Fault Refusal :=
  .next (s.complete (renormCommand .sng man.toNat exp neg))

def execRnrmD (man : BitVec 64) (exp : BitVec 16) (neg : Bool) (s : State) : Host.Outcome State Fault Refusal :=
  .next (s.complete (renormCommand .dbl man.toNat exp neg))

end Sys2Proof.Machine
end

