-- ==== Sys2Proof/Machine/Adder.lean ====
section
/-! DEFINITION. denormalized_fp_adder: FADD and FSUB (R90 to R97). -/

namespace Sys2Proof.Machine

/-- Two aligned magnitudes: the operand of the larger exponent (`mh`, `sh`) and the shifted other one (`ml`, `sl`), at
the exponent `e` (R93). -/
structure Aligned where
  e    : Int
  mh   : Nat
  sh   : Bool
  ml   : Nat
  sl   : Bool
  /-- Whether any nonzero bit was shifted away. -/
  lost : Bool
deriving DecidableEq, Repr

/-- The alignment of R93 once it is known which operand is `hi`. -/
def alignTo (f : Fmt) (hi lo : Triple) : Aligned :=
  let d := (hi.exp - lo.exp).toNat
  if d ≥ f.W then
    { e := hi.exp, mh := hi.man, sh := hi.neg, ml := 0, sl := lo.neg, lost := true }
  else
    { e := hi.exp, mh := hi.man, sh := hi.neg, ml := lo.man >>> d, sl := lo.neg,
      lost := decide (lo.man % 2 ^ d ≠ 0) }

/-- Alignment: the operand of the smaller exponent is shifted right, truncating (R93). -/
def align (f : Fmt) (x y : Triple) : Aligned :=
  if x.exp ≥ y.exp then alignTo f x y else alignTo f y x

/-- Same signs: magnitude addition, one truncating shift on a carry out of the working width (R94). -/
def addMagnitudes (f : Fmt) (al : Aligned) : Triple :=
  let man := al.mh + al.ml
  if man ≥ 2 ^ f.W then { exp := al.e + 1, man := man >>> 1, neg := al.sh }
  else { exp := al.e, man := man, neg := al.sh }

/-- Different signs: larger minus smaller, the sign of the larger (R95). -/
def subDifference (al : Aligned) : Triple :=
  if al.ml > al.mh then { exp := al.e, man := al.ml - al.mh, neg := al.sl }
  else { exp := al.e, man := al.mh - al.ml, neg := al.sh }

/-- Different signs with the legacy correction, applied only when bits were lost (R95). -/
def subMagnitudes (p : Params) (f : Fmt) (al : Aligned) : Triple :=
  let t := subDifference al
  if al.lost then { t with man := p.subq f t.man } else t

/-- The sum of two nonzero values before renormalization (R93 to R95). -/
def addTriple (p : Params) (f : Fmt) (x y : Triple) : Triple :=
  let al := align f x y
  if al.sh = al.sl then addMagnitudes f al else subMagnitudes p f al

/-- `fadd` (R92). -/
def fadd (p : Params) (f : Fmt) (a b : Bus) : Latch :=
  if isZero f b then
    if isZero f a then result f.tag (zero f) else result f.tag a
  else if isZero f a then result f.tag b
  else renorm f (addTriple p f (den f a) (den f b))

/-- FADD on its operands (R90, R96). -/
def floatAdd (p : Params) (x y : Operand) : Latch :=
  let q := prom x y
  fadd p q.fmt q.a q.b

/-- FSUB on its operands: the sum with the second operand negated after promotion (R91, R97). -/
def floatSub (p : Params) (x y : Operand) : Latch :=
  let q := prom x y
  fadd p q.fmt q.a (fneg q.fmt q.b)

def execFaddS (a b : SngBits) (s : State) : Host.Outcome State Fault Refusal :=
  .next (s.complete (floatAdd Params.ofUnit (.sng a) (.sng b)))

def execFaddSD (a : SngBits) (b : DblBits) (s : State) : Host.Outcome State Fault Refusal :=
  .next (s.complete (floatAdd Params.ofUnit (.sng a) (.dbl b)))

def execFaddDS (a : DblBits) (b : SngBits) (s : State) : Host.Outcome State Fault Refusal :=
  .next (s.complete (floatAdd Params.ofUnit (.dbl a) (.sng b)))

def execFaddD (a b : DblBits) (s : State) : Host.Outcome State Fault Refusal :=
  .next (s.complete (floatAdd Params.ofUnit (.dbl a) (.dbl b)))

def execFsubS (a b : SngBits) (s : State) : Host.Outcome State Fault Refusal :=
  .next (s.complete (floatSub Params.ofUnit (.sng a) (.sng b)))

def execFsubSD (a : SngBits) (b : DblBits) (s : State) : Host.Outcome State Fault Refusal :=
  .next (s.complete (floatSub Params.ofUnit (.sng a) (.dbl b)))

def execFsubDS (a : DblBits) (b : SngBits) (s : State) : Host.Outcome State Fault Refusal :=
  .next (s.complete (floatSub Params.ofUnit (.dbl a) (.sng b)))

def execFsubD (a b : DblBits) (s : State) : Host.Outcome State Fault Refusal :=
  .next (s.complete (floatSub Params.ofUnit (.dbl a) (.dbl b)))

end Sys2Proof.Machine
end

