-- ==== Sys2Proof/Machine/Comparator.lean ====
section
/-! DEFINITION. fp_comparator: FGT and FEQ in their eight forms (R120 to R124). -/

namespace Sys2Proof.Machine

/-- `fgt`: zero first, then signs, then magnitude words, reversed for negatives (R122). -/
def fgt (f : Fmt) (a b : Bus) : Bool :=
  if isZero f a then !isZero f b && sgn f b
  else if isZero f b then !sgn f a
  else if sgn f a ≠ sgn f b then sgn f b
  else if sgn f a = false then decide ((absw f a).toNat > (absw f b).toNat)
  else decide ((absw f b).toNat > (absw f a).toNat)

/-- `feq`: any two zeros are equal, otherwise every bit counts (R123). -/
def feq (f : Fmt) (a b : Bus) : Bool :=
  if isZero f a || isZero f b then isZero f a && isZero f b else decide (a = b)

/-- FGT on its operands (R120, R122). -/
def floatGreater (x y : Operand) : Latch :=
  let q := prom x y
  compared (fgt q.fmt q.a q.b)

/-- FEQ on its operands (R120, R123). -/
def floatEqual (x y : Operand) : Latch :=
  let q := prom x y
  compared (feq q.fmt q.a q.b)

def execFgtIS (a : IntBits) (b : SngBits) (s : State) : Host.Outcome State Fault Refusal :=
  .next (s.complete (floatGreater (.int a) (.sng b)))

def execFgtID (a : IntBits) (b : DblBits) (s : State) : Host.Outcome State Fault Refusal :=
  .next (s.complete (floatGreater (.int a) (.dbl b)))

def execFgtSI (a : SngBits) (b : IntBits) (s : State) : Host.Outcome State Fault Refusal :=
  .next (s.complete (floatGreater (.sng a) (.int b)))

def execFgtS (a b : SngBits) (s : State) : Host.Outcome State Fault Refusal :=
  .next (s.complete (floatGreater (.sng a) (.sng b)))

def execFgtSD (a : SngBits) (b : DblBits) (s : State) : Host.Outcome State Fault Refusal :=
  .next (s.complete (floatGreater (.sng a) (.dbl b)))

def execFgtDI (a : DblBits) (b : IntBits) (s : State) : Host.Outcome State Fault Refusal :=
  .next (s.complete (floatGreater (.dbl a) (.int b)))

def execFgtDS (a : DblBits) (b : SngBits) (s : State) : Host.Outcome State Fault Refusal :=
  .next (s.complete (floatGreater (.dbl a) (.sng b)))

def execFgtD (a b : DblBits) (s : State) : Host.Outcome State Fault Refusal :=
  .next (s.complete (floatGreater (.dbl a) (.dbl b)))

def execFeqIS (a : IntBits) (b : SngBits) (s : State) : Host.Outcome State Fault Refusal :=
  .next (s.complete (floatEqual (.int a) (.sng b)))

def execFeqID (a : IntBits) (b : DblBits) (s : State) : Host.Outcome State Fault Refusal :=
  .next (s.complete (floatEqual (.int a) (.dbl b)))

def execFeqSI (a : SngBits) (b : IntBits) (s : State) : Host.Outcome State Fault Refusal :=
  .next (s.complete (floatEqual (.sng a) (.int b)))

def execFeqS (a b : SngBits) (s : State) : Host.Outcome State Fault Refusal :=
  .next (s.complete (floatEqual (.sng a) (.sng b)))

def execFeqSD (a : SngBits) (b : DblBits) (s : State) : Host.Outcome State Fault Refusal :=
  .next (s.complete (floatEqual (.sng a) (.dbl b)))

def execFeqDI (a : DblBits) (b : IntBits) (s : State) : Host.Outcome State Fault Refusal :=
  .next (s.complete (floatEqual (.dbl a) (.int b)))

def execFeqDS (a : DblBits) (b : SngBits) (s : State) : Host.Outcome State Fault Refusal :=
  .next (s.complete (floatEqual (.dbl a) (.sng b)))

def execFeqD (a b : DblBits) (s : State) : Host.Outcome State Fault Refusal :=
  .next (s.complete (floatEqual (.dbl a) (.dbl b)))

end Sys2Proof.Machine
end

