-- ==== Sys2Proof/Machine/IntAlu.lean ====
section
/-! DEFINITION. int16_alu: IADD, ISUB, INEG, IDIV, IMOD, IGT, IEQ (R60 to R69). -/

namespace Sys2Proof.Machine

/-- `u16(z)` on the bus: two's complement of any integer in 16 bits, zero-extended (R7, R61). -/
def u16 (z : Int) : Bus := onBus (BitVec.ofInt 16 z)

/-- `enc_int`: the range-checked encoding of an integer result (R61, C5, C6). -/
def encInt (z : Int) (unsigned : Bool) : Latch :=
  if z > (if unsigned then 65535 else 32767) then signalOverflow .int 0x7FFF
  else if z < -32768 then signalOverflow .int 0x8000
  else result .int (u16 z)

/-- The answer of IDIV and IMOD to a zero divisor: a Single of maximum magnitude with the dividend's sign (R65, R66). -/
def intDivideByZero (a : IntBits) : Latch := signalDivisionByZero .sng (maxMag .sng a.msb)

/-- IDIV on its operands (R65). -/
def intDivide (a b : IntBits) : Latch :=
  if b = 0 then intDivideByZero a else encInt (Int.tdiv a.toInt b.toInt) false

/-- IMOD on its operands (R66). -/
def intRemainder (a b : IntBits) : Latch :=
  if b = 0 then intDivideByZero a else result .int (u16 (a.toInt - b.toInt * Int.tdiv a.toInt b.toInt))

/-- IADD (R62). -/
def execIadd (a b : IntBits) (s : State) : Host.Outcome State Fault Refusal :=
  .next (s.complete (encInt (a.toInt + b.toInt) false))

/-- ISUB: the exact difference, not the sum with a negation (R63, D23). -/
def execIsub (a b : IntBits) (s : State) : Host.Outcome State Fault Refusal :=
  .next (s.complete (encInt (a.toInt - b.toInt) false))

/-- INEG (R64). -/
def execIneg (a : IntBits) (s : State) : Host.Outcome State Fault Refusal :=
  .next (s.complete (encInt (-a.toInt) false))

/-- IDIV (R65). -/
def execIdiv (a b : IntBits) (s : State) : Host.Outcome State Fault Refusal :=
  .next (s.complete (intDivide a b))

/-- IMOD (R66). -/
def execImod (a b : IntBits) (s : State) : Host.Outcome State Fault Refusal :=
  .next (s.complete (intRemainder a b))

/-- IGT (R67). -/
def execIgt (a b : IntBits) (s : State) : Host.Outcome State Fault Refusal :=
  .next (s.complete (compared (decide (a.toInt > b.toInt))))

/-- IEQ (R68). -/
def execIeq (a b : IntBits) (s : State) : Host.Outcome State Fault Refusal :=
  .next (s.complete (compared (decide (a = b))))

end Sys2Proof.Machine
end

