-- ==== Sys2Proof/Machine/Converters.lean ====
section
/-! DEFINITION. The converters I2F, F2I, F2IU, S2D and D2S (R130 to R136). -/

namespace Sys2Proof.Machine

/-- I2F: always exact, never a signal (R131). -/
def intToFloat (f : Fmt) (n : IntBits) : Latch := result f.tag (i2f f n)

/-- The magnitude of a float rounded to the nearest integer, ties away from zero: `s` is the power of two of one unit
of the significand (R132). -/
def roundMagnitude (sig : Nat) (s : Int) : Nat :=
  if s ≥ 0 then sig <<< s.toNat else ((sig >>> (-s - 1).toNat) + 1) >>> 1

/-- `fround`: the nearest integer, ties away from zero (R132, C2). -/
def fround (f : Fmt) (x : Bus) : Int :=
  if isZero f x then 0
  else
    let mag := roundMagnitude (sig f x) ((expb f x : Int) - f.bias)
    if sgn f x then -(mag : Int) else mag

/-- F2I and F2IU (R132, R133). -/
def floatToInt (f : Fmt) (x : Bus) (unsigned : Bool) : Latch := encInt (fround f x) unsigned

/-- S2D: `widen`, but a zero becomes the canonical zero (R134). -/
def singleToDouble (x : SngBits) : Latch :=
  if isZero .sng (onBus x) then result .dbl (zero .dbl) else result .dbl (widen x)

/-- The triple of D2S: bytes 4 to 6 kept, byte 3 the guard byte, bytes 0 to 2 dropped (R135). -/
def narrowTriple (x : DblBits) : Triple :=
  { exp := byteOf x 7
    man := ((byteOf x 6 ||| 0x80) <<< 24) ||| (byteOf x 5 <<< 16) ||| (byteOf x 4 <<< 8) ||| byteOf x 3
    neg := decide (byteOf x 6 >>> 7 = 1) }

/-- D2S (R135). -/
def doubleToSingle (x : DblBits) : Latch :=
  if isZero .dbl x then result .sng (zero .sng) else renorm .sng (narrowTriple x)

def execI2fS (a : IntBits) (s : State) : Host.Outcome State Fault Refusal :=
  .next (s.complete (intToFloat .sng a))

def execI2fD (a : IntBits) (s : State) : Host.Outcome State Fault Refusal :=
  .next (s.complete (intToFloat .dbl a))

def execF2iS (a : SngBits) (s : State) : Host.Outcome State Fault Refusal :=
  .next (s.complete (floatToInt .sng (onBus a) false))

def execF2iD (a : DblBits) (s : State) : Host.Outcome State Fault Refusal :=
  .next (s.complete (floatToInt .dbl a false))

def execS2d (a : SngBits) (s : State) : Host.Outcome State Fault Refusal :=
  .next (s.complete (singleToDouble a))

def execD2s (a : DblBits) (s : State) : Host.Outcome State Fault Refusal :=
  .next (s.complete (doubleToSingle a))

def execF2iuS (a : SngBits) (s : State) : Host.Outcome State Fault Refusal :=
  .next (s.complete (floatToInt .sng (onBus a) true))

def execF2iuD (a : DblBits) (s : State) : Host.Outcome State Fault Refusal :=
  .next (s.complete (floatToInt .dbl a true))

end Sys2Proof.Machine
end

