-- ==== Sys2Proof/Machine/Divider.lean ====
section
/-! DEFINITION. denormalized_fp_divider: FDIV (R110 to R114). -/

namespace Sys2Proof.Machine

/-- The quotient, its exponent and sign (R113). -/
def divTriple (p : Params) (f : Fmt) (x y : Triple) : Triple :=
  { exp := x.exp - y.exp + f.bias + 9 - f.W, man := p.divq f x.man y.man, neg := x.neg ^^ y.neg }

/-- `fdiv`: the divisor is tested first, so `0 / 0` is DivisionByZero (R111, R112, R114). -/
def fdiv (p : Params) (f : Fmt) (a b : Bus) : Latch :=
  if isZero f b then signalDivisionByZero f.tag (maxMag f (sgn f a))
  else if isZero f a then result f.tag (zero f)
  else renorm f (divTriple p f (den f a) (den f b))

/-- FDIV on its operands (R110, R114). -/
def floatDiv (p : Params) (x y : Operand) : Latch :=
  let q := prom x y
  fdiv p q.fmt q.a q.b

def execFdivS (a b : SngBits) (s : State) : Host.Outcome State Fault Refusal :=
  .next (s.complete (floatDiv Params.ofUnit (.sng a) (.sng b)))

def execFdivSD (a : SngBits) (b : DblBits) (s : State) : Host.Outcome State Fault Refusal :=
  .next (s.complete (floatDiv Params.ofUnit (.sng a) (.dbl b)))

def execFdivDS (a : DblBits) (b : SngBits) (s : State) : Host.Outcome State Fault Refusal :=
  .next (s.complete (floatDiv Params.ofUnit (.dbl a) (.sng b)))

def execFdivD (a b : DblBits) (s : State) : Host.Outcome State Fault Refusal :=
  .next (s.complete (floatDiv Params.ofUnit (.dbl a) (.dbl b)))

end Sys2Proof.Machine
end

