-- ==== Sys2Proof/Machine/Multiplier.lean ====
section
/-! DEFINITION. denormalized_fp_multiplier: FMUL (R100 to R104). -/

namespace Sys2Proof.Machine

/-- The range shift of R102 with at most `k` iterations: truncating right shifts until the product is below `2^W`. -/
def rangeShiftLoop (f : Fmt) : Nat → Triple → Triple
  | 0, t => t
  | k + 1, t =>
    if t.man ≥ 2 ^ f.W then rangeShiftLoop f k { t with man := t.man >>> 1, exp := t.exp + 1 } else t

/-- The product, its exponent and the range shift (R102). A product of two mantissas needs at most `W` iterations. -/
def mulTriple (f : Fmt) (x y : Triple) : Triple :=
  rangeShiftLoop f f.W
    { exp := x.exp + y.exp - f.bias - 8, man := x.man * y.man, neg := x.neg ^^ y.neg }

/-- The legacy nibble correction (R103). -/
def mulCorrect (p : Params) (f : Fmt) (t : Triple) : Triple := { t with man := p.mulq f t.man }

/-- `fmul` (R101, R104). -/
def fmul (p : Params) (f : Fmt) (a b : Bus) : Latch :=
  if isZero f a || isZero f b then result f.tag (zero f)
  else renorm f (mulCorrect p f (mulTriple f (den f a) (den f b)))

/-- FMUL on its operands (R100, R104). -/
def floatMul (p : Params) (x y : Operand) : Latch :=
  let q := prom x y
  fmul p q.fmt q.a q.b

def execFmulS (a b : SngBits) (s : State) : Host.Outcome State Fault Refusal :=
  .next (s.complete (floatMul Params.ofUnit (.sng a) (.sng b)))

def execFmulSD (a : SngBits) (b : DblBits) (s : State) : Host.Outcome State Fault Refusal :=
  .next (s.complete (floatMul Params.ofUnit (.sng a) (.dbl b)))

def execFmulDS (a : DblBits) (b : SngBits) (s : State) : Host.Outcome State Fault Refusal :=
  .next (s.complete (floatMul Params.ofUnit (.dbl a) (.sng b)))

def execFmulD (a b : DblBits) (s : State) : Host.Outcome State Fault Refusal :=
  .next (s.complete (floatMul Params.ofUnit (.dbl a) (.dbl b)))

end Sys2Proof.Machine
end

