-- ==== Sys2Proof/Machine/Dispatch.lean ====
section
/-! DEFINITION. The dispatch: one arm per command, each one call of its meaning. -/

namespace Sys2Proof.Machine

def exec (i : Instr) (s : State) : Host.Outcome State Fault Refusal :=
  match i with
  | .iadd a b => Sys2Proof.Machine.execIadd a b s
  | .faddS a b => Sys2Proof.Machine.execFaddS a b s
  | .faddSD a b => Sys2Proof.Machine.execFaddSD a b s
  | .faddDS a b => Sys2Proof.Machine.execFaddDS a b s
  | .faddD a b => Sys2Proof.Machine.execFaddD a b s
  | .isub a b => Sys2Proof.Machine.execIsub a b s
  | .fsubS a b => Sys2Proof.Machine.execFsubS a b s
  | .fsubSD a b => Sys2Proof.Machine.execFsubSD a b s
  | .fsubDS a b => Sys2Proof.Machine.execFsubDS a b s
  | .fsubD a b => Sys2Proof.Machine.execFsubD a b s
  | .fmulS a b => Sys2Proof.Machine.execFmulS a b s
  | .fmulSD a b => Sys2Proof.Machine.execFmulSD a b s
  | .fmulDS a b => Sys2Proof.Machine.execFmulDS a b s
  | .fmulD a b => Sys2Proof.Machine.execFmulD a b s
  | .idiv a b => Sys2Proof.Machine.execIdiv a b s
  | .fdivS a b => Sys2Proof.Machine.execFdivS a b s
  | .fdivSD a b => Sys2Proof.Machine.execFdivSD a b s
  | .fdivDS a b => Sys2Proof.Machine.execFdivDS a b s
  | .fdivD a b => Sys2Proof.Machine.execFdivD a b s
  | .imod a b => Sys2Proof.Machine.execImod a b s
  | .ineg a => Sys2Proof.Machine.execIneg a s
  | .igt a b => Sys2Proof.Machine.execIgt a b s
  | .fgtIS a b => Sys2Proof.Machine.execFgtIS a b s
  | .fgtID a b => Sys2Proof.Machine.execFgtID a b s
  | .fgtSI a b => Sys2Proof.Machine.execFgtSI a b s
  | .fgtS a b => Sys2Proof.Machine.execFgtS a b s
  | .fgtSD a b => Sys2Proof.Machine.execFgtSD a b s
  | .fgtDI a b => Sys2Proof.Machine.execFgtDI a b s
  | .fgtDS a b => Sys2Proof.Machine.execFgtDS a b s
  | .fgtD a b => Sys2Proof.Machine.execFgtD a b s
  | .ieq a b => Sys2Proof.Machine.execIeq a b s
  | .feqIS a b => Sys2Proof.Machine.execFeqIS a b s
  | .feqID a b => Sys2Proof.Machine.execFeqID a b s
  | .feqSI a b => Sys2Proof.Machine.execFeqSI a b s
  | .feqS a b => Sys2Proof.Machine.execFeqS a b s
  | .feqSD a b => Sys2Proof.Machine.execFeqSD a b s
  | .feqDI a b => Sys2Proof.Machine.execFeqDI a b s
  | .feqDS a b => Sys2Proof.Machine.execFeqDS a b s
  | .feqD a b => Sys2Proof.Machine.execFeqD a b s
  | .i2fS a => Sys2Proof.Machine.execI2fS a s
  | .i2fD a => Sys2Proof.Machine.execI2fD a s
  | .f2iS a => Sys2Proof.Machine.execF2iS a s
  | .f2iD a => Sys2Proof.Machine.execF2iD a s
  | .s2d a => Sys2Proof.Machine.execS2d a s
  | .d2s a => Sys2Proof.Machine.execD2s a s
  | .f2iuS a => Sys2Proof.Machine.execF2iuS a s
  | .f2iuD a => Sys2Proof.Machine.execF2iuD a s
  | .rnrmS man exp neg => Sys2Proof.Machine.execRnrmS man exp neg s
  | .rnrmD man exp neg => Sys2Proof.Machine.execRnrmD man exp neg s

end Sys2Proof.Machine
end

