-- ==== Sys2Proof/Machine/Port.lean ====
section
/-! DEFINITION. What the unit does with the command in progress: a legal word is executed, an illegal one refused. -/

namespace Sys2Proof.Machine

/-- The command in progress runs to completion (R11, R35, R47). -/
def State.runCommand (s : State) (t : Transaction) : Host.Outcome State Fault Refusal :=
  match decode t with
  | .ok i => exec i s
  | .error _ => .next (s.complete refuse)

/-- A transaction stands as the command in progress, just accepted, and the host waits for it: the very next step
runs it (log 10). -/
def State.withAccepted (s : State) (t : Transaction) : State :=
  { s with inProgress := some t, host := .waitReady :: s.host }

end Sys2Proof.Machine
end

