-- ==== Sys2Proof/Machine/Step.lean ====
section
/-! DEFINITION. One step of the unit with its host. Reset, a read and a clash on the port act at once; a new command waits until the one in progress has completed. -/

namespace Sys2Proof.Machine

/-- One step (R35, R170 to R173, R176; log 3, log 4). A reset abandons the command in progress. A read shows the latch
as it stands. Otherwise a command in progress completes; else the next command is accepted; with no input the unit
waits. -/
def step (s : State) : Host.Outcome State Fault Refusal :=
  match s.host with
  | .reset :: rest => .next (s.applyReset rest)
  | .read :: rest => s.hostRead rest
  | .contend _ _ :: _ => .refused .portContention
  | .issue t :: rest =>
    match s.inProgress with
    | some c => s.runCommand c
    | none => .next (s.accept t rest)
  | .waitReady :: rest =>
    match s.inProgress with
    | some c => s.runCommand c
    | none => .next { s with host := rest }
  | [] =>
    match s.inProgress with
    | some c => s.runCommand c
    | none => .next s

/-- The command whose bits below `nbits` are `w`, every bit above being 0, accepted and in progress, so that the very
next step runs it (log 9, log 10). -/
def State.withFetchWord (s : State) (nbits w : Nat) : State :=
  s.withAccepted (Transaction.ofNat (w % 2 ^ nbits))

end Sys2Proof.Machine
end

