-- ==== Sys2Proof/Machine/Value.lean ====
section
/-! DEFINITION. The numbers that packed values, triples and operands stand for (R22, R27, R28). No meaning uses them: claims do. -/

namespace Sys2Proof.Machine

/-- `(-1)^s` as a rational. -/
def signFactor (s : Bool) : ℚ := if s then -1 else 1

/-- The value of a packed float (R27). -/
def val (f : Fmt) (x : Bus) : ℚ :=
  if isZero f x then 0
  else signFactor (sgn f x) * (sig f x : ℚ) * (2 : ℚ) ^ ((expb f x : ℤ) - (f.bias : ℤ))

/-- The number a triple stands for (R28). -/
def Triple.val (f : Fmt) (t : Triple) : ℚ :=
  signFactor t.neg * ((t.man : ℚ) / 256) * (2 : ℚ) ^ (t.exp - (f.bias : ℤ))

/-- The value of an operand: the signed value of an Integer (R22), the value of a float (R27). -/
def Operand.val : Operand → ℚ
  | .int n => (n.toInt : ℚ)
  | .sng x => Machine.val .sng (onBus x)
  | .dbl x => Machine.val .dbl x

/-- `n` is the integer nearest to `q`, a tie going away from zero (R132). -/
def NearestAway (q : ℚ) (n : ℤ) : Prop :=
  |q - n| < 1 / 2 ∨ (|q - n| = 1 / 2 ∧ |q| < |(n : ℚ)|)

end Sys2Proof.Machine
end

