-- ==== Sys2Proof/Safety.lean ====
section
/-! DEFINITION. What counts as safe, in the terms the claims use: the invariant of the latch, which commands may report what, and when a step stops. -/

namespace Sys2Proof.Machine

/-- Bits of a value whose tag has this code (R5, R42). -/
def tagWidth (tag : BitVec 2) : Nat :=
  if tag = 0b00 then 16 else if tag = 0b01 then 32 else 64

/-- At most one of `OVF`, `DBZ`, `ILL`, and `T` only with none of them (R14). -/
abbrev Latch.OneCondition (l : Latch) : Prop :=
  ¬(l.ovf = true ∧ l.dbz = true) ∧ ¬(l.ovf = true ∧ l.ill = true) ∧ ¬(l.dbz = true ∧ l.ill = true) ∧
  (l.t = true → l.ovf = false ∧ l.dbz = false ∧ l.ill = false)

/-- Tag `11` is never produced, and `R.val` is 0 above the bytes of its tag (R12, R21). -/
abbrev Latch.TypedValue (l : Latch) : Prop :=
  l.tag ≠ 0b11 ∧ l.val.toNat < 2 ^ tagWidth l.tag

/-- A float on `R.val` is the canonical zero or has a nonzero exponent byte (R32). -/
abbrev Latch.CanonicalZero (l : Latch) : Prop :=
  (l.tag = 0b01 → expb .sng l.val = 0 → l.val = 0) ∧ (l.tag = 0b10 → expb .dbl l.val = 0 → l.val = 0)

/-- `v` is the maximum-magnitude float of the tag's format (R31). -/
abbrev IsMaxMag (tag : BitVec 2) (v : Bus) : Prop :=
  (tag = 0b01 ∧ (v = 0xFF7FFFFF ∨ v = 0xFFFFFFFF)) ∨
  (tag = 0b10 ∧ (v = 0xFF7FFFFFFFFFFFFF ∨ v = 0xFFFFFFFFFFFFFFFF))

/-- Under a flag the value is the flag's substitute (R151 to R153), under `T` it is the Integer 0 (R46). -/
abbrev Latch.SubstituteShown (l : Latch) : Prop :=
  (l.ovf = true → (l.tag = 0b00 ∧ (l.val = 0x7FFF ∨ l.val = 0x8000)) ∨ IsMaxMag l.tag l.val) ∧
  (l.dbz = true → IsMaxMag l.tag l.val) ∧
  (l.ill = true → l.tag = 0b00 ∧ l.val = 0) ∧
  (l.t = true → l.tag = 0b00 ∧ l.val = 0)

/-- Until a command has completed the latch is as reset left it (R12, R18). -/
abbrev Latch.BlankUntilValid (l : Latch) : Prop := l.valid = false → l = Latch.reset

/-- The invariant of the latch. -/
abbrev Latch.Inv (l : Latch) : Prop :=
  l.OneCondition ∧ l.TypedValue ∧ l.CanonicalZero ∧ l.SubstituteShown ∧ l.BlankUntilValid

/-- The invariant of the machine: its only architectural state keeps its form. -/
abbrev State.Inv (s : State) : Prop := s.latch.Inv

/-- The state after a legal command that answered this tag, value and flags: the whole latch written, no command in
progress, the host's inputs as they were. -/
def State.answered (s : State) (tag : BitVec 2) (v : Bus) (ovf dbz t : Bool) : State :=
  { s with
    latch := { valid := true, val := v, tag := tag, ovf := ovf, dbz := dbz, ill := false, t := t }
    inProgress := none }

/-- The state after an illegal word (R47). -/
def State.refusedWord (s : State) : State :=
  { s with
    latch := { valid := true, val := 0, tag := 0b00, ovf := false, dbz := false, ill := true, t := false }
    inProgress := none }

/-- The host lets the unit run on: its next input is no reset, no read and no clash on the port (log 4). -/
def State.undisturbed (s : State) : Bool :=
  match s.host with
  | .reset :: _ => false
  | .read :: _ => false
  | .contend _ _ :: _ => false
  | .issue _ :: _ => true
  | .waitReady :: _ => true
  | [] => true

/-- The step's only two stops: a read of `R` before any command has completed, and a clash on the port. -/
def State.stops (s : State) : Bool :=
  match s.host with
  | .read :: _ => !s.latch.valid
  | .contend _ _ :: _ => true
  | .reset :: _ => false
  | .issue _ :: _ => false
  | .waitReady :: _ => false
  | [] => false

/-- What a host that keeps its obligations (R171) does with one command: issue it, wait for its completion, read `R`. -/
def hostScript (t : Transaction) : List HostInput := [.issue t, .waitReady, .read]

/-- `l` is the unit's answer to the transaction, whatever the state it comes to. -/
def AnsweredBy (t : Transaction) (l : Latch) : Prop :=
  ∀ s : State, s.runCommand t = .next (s.complete l)

end Sys2Proof.Machine

namespace Sys2Proof

/-- The `cmd` column of R44, in ascending order. -/
def commandWords : List CmdWord := [
  0x00, 0x05, 0x06, 0x09, 0x0A, 0x10, 0x15, 0x16, 0x19, 0x1A, 0x25, 0x26, 0x29, 0x2A,
  0x30, 0x35, 0x36, 0x39, 0x3A, 0x40, 0x50, 0x60, 0x61, 0x62, 0x64, 0x65, 0x66, 0x68,
  0x69, 0x6A, 0x70, 0x71, 0x72, 0x74, 0x75, 0x76, 0x78, 0x79, 0x7A, 0x81, 0x82, 0x84,
  0x86, 0x88, 0x89, 0x94, 0x98, 0xA1, 0xA2]

/-- The commands that can signal Overflow: all but IMOD, IGT, IEQ, FGT, FEQ, I2F and S2D (R151). -/
def Instr.mayOverflow : Instr → Bool
  | .iadd _ _ | .faddS _ _ | .faddSD _ _ | .faddDS _ _ | .faddD _ _ | .isub _ _ | .fsubS _ _ | .fsubSD _ _
  | .fsubDS _ _ | .fsubD _ _ | .fmulS _ _ | .fmulSD _ _ | .fmulDS _ _ | .fmulD _ _ | .idiv _ _ | .fdivS _ _
  | .fdivSD _ _ | .fdivDS _ _ | .fdivD _ _ | .ineg _ | .f2iS _ | .f2iD _ | .d2s _ | .f2iuS _ | .f2iuD _
  | .rnrmS _ _ _ | .rnrmD _ _ _ => true
  | .imod _ _ | .igt _ _ | .fgtIS _ _ | .fgtID _ _ | .fgtSI _ _ | .fgtS _ _ | .fgtSD _ _ | .fgtDI _ _
  | .fgtDS _ _ | .fgtD _ _ | .ieq _ _ | .feqIS _ _ | .feqID _ _ | .feqSI _ _ | .feqS _ _ | .feqSD _ _
  | .feqDI _ _ | .feqDS _ _ | .feqD _ _ | .i2fS _ | .i2fD _ | .s2d _ => false

/-- The comparisons, the only commands that write `T` (R12, R46). -/
def Instr.isComparison : Instr → Bool
  | .igt _ _ | .fgtIS _ _ | .fgtID _ _ | .fgtSI _ _ | .fgtS _ _ | .fgtSD _ _ | .fgtDI _ _ | .fgtDS _ _
  | .fgtD _ _ | .ieq _ _ | .feqIS _ _ | .feqID _ _ | .feqSI _ _ | .feqS _ _ | .feqSD _ _ | .feqDI _ _
  | .feqDS _ _ | .feqD _ _ => true
  | .iadd _ _ | .faddS _ _ | .faddSD _ _ | .faddDS _ _ | .faddD _ _ | .isub _ _ | .fsubS _ _ | .fsubSD _ _
  | .fsubDS _ _ | .fsubD _ _ | .fmulS _ _ | .fmulSD _ _ | .fmulDS _ _ | .fmulD _ _ | .idiv _ _ | .fdivS _ _
  | .fdivSD _ _ | .fdivDS _ _ | .fdivD _ _ | .imod _ _ | .ineg _ | .i2fS _ | .i2fD _ | .f2iS _ | .f2iD _
  | .s2d _ | .d2s _ | .f2iuS _ | .f2iuD _ | .rnrmS _ _ _ | .rnrmD _ _ _ => false

/-- The command divides by exactly zero: an Integer divisor 0, or a float divisor whose exponent byte is 0 (R152). -/
def Instr.zeroDivisor : Instr → Bool
  | .idiv _ b => decide (b.toNat = 0)
  | .imod _ b => decide (b.toNat = 0)
  | .fdivS _ b => decide (b.toNat / 2 ^ 24 = 0)
  | .fdivSD _ b => decide (b.toNat / 2 ^ 56 = 0)
  | .fdivDS _ b => decide (b.toNat / 2 ^ 24 = 0)
  | .fdivD _ b => decide (b.toNat / 2 ^ 56 = 0)
  | .iadd _ _ | .faddS _ _ | .faddSD _ _ | .faddDS _ _ | .faddD _ _ | .isub _ _ | .fsubS _ _ | .fsubSD _ _
  | .fsubDS _ _ | .fsubD _ _ | .fmulS _ _ | .fmulSD _ _ | .fmulDS _ _ | .fmulD _ _ | .ineg _ | .igt _ _
  | .fgtIS _ _ | .fgtID _ _ | .fgtSI _ _ | .fgtS _ _ | .fgtSD _ _ | .fgtDI _ _ | .fgtDS _ _ | .fgtD _ _
  | .ieq _ _ | .feqIS _ _ | .feqID _ _ | .feqSI _ _ | .feqS _ _ | .feqSD _ _ | .feqDI _ _ | .feqDS _ _
  | .feqD _ _ | .i2fS _ | .i2fD _ | .f2iS _ | .f2iD _ | .s2d _ | .d2s _ | .f2iuS _ | .f2iuD _ | .rnrmS _ _ _
  | .rnrmD _ _ _ => false

end Sys2Proof
end

