-- ==== Sys2Proof/Certificates/Slice0/Obligations.lean ====
section
/-! DEFINITION. The statements for the provers: the command port, encoding, the seven families of commands, the invariant of the latch and the order of commands. -/

open Sys2Proof Sys2Proof.Machine

/-! ### Reset, the port and the step -/

/-- R18: the latch after reset is zero-filled and not valid, nothing else is left, and a read of `R` while
`R.valid = 0` is a fault. -/
def Obligations.ResetLatchIsBlank : Prop :=
  State.reset.latch =
      { valid := false, val := 0, tag := 0b00, ovf := false, dbz := false, ill := false, t := false } ∧
  State.reset.inProgress = none ∧
  ∀ (s : State) (rest : List HostInput), s.latch.valid = false → s.host = .read :: rest →
    step s = .fault .readBeforeValid

/-- R170: reset at any time puts the latch in its reset state; a command in progress is abandoned and does not write
`R`. -/
def Obligations.ResetAbandonsCommand : Prop :=
  ∀ (s : State) (rest : List HostInput), s.host = .reset :: rest →
    step s = .next
      { latch := { valid := false, val := 0, tag := 0b00, ovf := false, dbz := false, ill := false, t := false }
        inProgress := none
        host := rest }

/-- R34, R35: a read of a valid latch changes nothing of the unit, with or without a command in progress, and may be
repeated. How the host's inputs are listed is the model's choice (log 2, log 4). -/
def Obligations.ReadHasNoSideEffect : Prop :=
  ∀ (s : State) (rest : List HostInput), s.latch.valid = true → s.host = .read :: rest →
    step s = .next { latch := s.latch, inProgress := s.inProgress, host := rest }

/-- R172, R173: an idle unit is ready; it samples the command presented and is then not ready; `R` is not yet
written. That acceptance is a step of its own is the model's choice (log 3). -/
def Obligations.IdleUnitAcceptsCommand : Prop :=
  ∀ (s : State) (t : Transaction) (rest : List HostInput), s.inProgress = none → s.host = .issue t :: rest →
    s.cmdReady = true ∧
    ∃ s', step s = .next s' ∧ s'.inProgress = some t ∧ s'.cmdReady = false ∧ s'.latch = s.latch ∧ s'.host = rest

/-- R173, R178: with a command in progress the unit is not ready, and unless it is reset, read or contended the next
step completes that command, whatever the host presents meanwhile; only then is the unit ready again. -/
def Obligations.AcceptedCommandCompletes : Prop :=
  ∀ (s : State) (c : Transaction), s.inProgress = some c → s.undisturbed = true →
    s.cmdReady = false ∧
    ∃ s', step s = .next s' ∧ s'.latch.valid = true ∧ s'.inProgress = none ∧ s'.cmdReady = true ∧ s'.host = s.host

/-- R176: two agents on the command port in one cycle are given no meaning. -/
def Obligations.PortContentionIsRefused : Prop :=
  ∀ (s : State) (t u : Transaction) (rest : List HostInput), s.host = .contend t u :: rest →
    step s = .refused .portContention

/-- R150, R157 and U4, U6: a step answers a next state except on a read before any completion and on a clash on the
port; no command, no signal and no illegal word stops the unit. -/
def Obligations.OnlyTheHostStopsTheUnit : Prop :=
  ∀ s : State, (∃ s', step s = .next s') ↔ s.stops = false

/-- R11, R35: the step of an undisturbed unit whose command in progress decodes is the meaning of the decoded command
at that very state; and a word placed as the next command is run by the next step. -/
def Obligations.StepRunsDecodedCommand : Prop :=
  (∀ (s : State) (c : Transaction) (i : Instr), s.inProgress = some c → s.undisturbed = true → decode c = .ok i →
    step s = exec i s) ∧
  (∀ (s : State) (nbits w : Nat) (i : Instr), decodeTableWord nbits w = some i →
    step (s.withFetchWord nbits w) = exec i (s.withFetchWord nbits w))

/-- R47: a word that is not in the table of R44 executes `refuse`, whatever is on the buses; the words not in the table
are those of the classes R47 lists; 207 of the 256 words are illegal and 49 are commands. -/
def Obligations.IllegalWordIsRefused : Prop :=
  (∀ (s : State) (c : Transaction), s.inProgress = some c → s.undisturbed = true → c.cmd ∉ commandWords →
    step s = .next s.refusedWord) ∧
  (∀ w : CmdWord, w ∉ commandWords ↔ (WellFormed.illegalClass w).isSome = true) ∧
  commandWords.length = 49 ∧
  ((List.range 256).filter (fun n => (WellFormed.illegalClass (BitVec.ofNat 8 n)).isSome)).length = 207

/-! ### Encoding -/

/-- R44 against R47: the decoder, written from the table, rejects a word exactly for the first class, in R47's order,
that the prose of R47 puts it in. R47 puts some words in two classes (`0xBF`: reserved `op` and reserved tag) and gives
them no order: that the first counts is the model's choice (log 14). -/
def Obligations.DecoderRejectsByClass : Prop :=
  ∀ (t : Transaction) (c : IllegalWord), decode t = .error c ↔ WellFormed.illegalClass t.cmd = some c

/-- R40 to R44: decoding what the encoder writes gives the command back, with every operand at every value. -/
def Obligations.DecodeReadsEncodedCommand : Prop :=
  ∀ i : Instr, decode (encode i) = .ok i

/-- R44, R43: a well-formed transaction decodes, and encoding what it decodes to gives it back: each has one meaning. -/
def Obligations.EncodeWritesDecodedTransaction : Prop :=
  ∀ t : Transaction, t.wellFormed = true → ∃ i, decode t = .ok i ∧ encode i = t

/-- R43: bus bits a command does not use are ignored. -/
def Obligations.UnusedBusBitsAreIgnored : Prop :=
  ∀ t u : Transaction, t.cmd = u.cmd →
    t.a.toNat % 2 ^ WellFormed.usedA t.cmd = u.a.toNat % 2 ^ WellFormed.usedA t.cmd →
    t.b.toNat % 2 ^ WellFormed.usedB t.cmd = u.b.toNat % 2 ^ WellFormed.usedB t.cmd →
    decode t = decode u

/-- R44, R43: six words written out from `op`, `ta`, `tb`, one of a family each, with garbage in the bus bits above
their operands and on an ignored bus (FDIV.D has no such bit), and two illegal ones. -/
def Obligations.WrittenOutWordsDecode : Prop :=
  decode ⟨0b0000_00_00, 0xFFFFFFFFFFFF0001, 0x8877665544330002⟩ = .ok (.iadd 1 2) ∧
  decode ⟨0b0001_01_10, 0xDEADBEEF84200000, 0x8320000000000000⟩ = .ok (.fsubSD 0x84200000 0x8320000000000000) ∧
  decode ⟨0b0011_10_10, 0x7, 0x9⟩ = .ok (.fdivD 7 9) ∧
  decode ⟨0b0110_00_01, 0xDEADBEEF0123000A, 0xFFFFFFFF84200000⟩ = .ok (.fgtIS 10 0x84200000) ∧
  decode ⟨0b1000_10_01, 0x5, 0xFFEEDDCCBBAA9988⟩ = .ok (.d2s 5) ∧
  decode ⟨0b1010_00_01, 0xDEADBEEFF0000000, 0x89ABCDEF45670084⟩ = .ok (.rnrmS 0xF0000000 132 true) ∧
  decode ⟨0b0000_00_01, 0x1, 0x1⟩ = .error .mixedArithmetic ∧
  decode ⟨0b1011_00_00, 0x1, 0x1⟩ = .error .reservedOp

/-! ### int16_alu -/

/-- R62: the sum, its saturated substitute on Overflow, and Overflow's condition on bits. -/
def Obligations.IntegerAddAnswer : Prop :=
  ∀ (A B : Bus) (s : State),
    let a : IntBits := A.extractLsb' 0 16
    let b : IntBits := B.extractLsb' 0 16
    let z : Int := a.toInt + b.toInt
    decode ⟨0x00, A, B⟩ = .ok (.iadd a b) ∧
    exec (.iadd a b) s = .next
      (if z > 32767 then s.answered 0b00 0x7FFF true false false
       else if z < -32768 then s.answered 0b00 0x8000 true false false
       else s.answered 0b00 ((a + b).setWidth 64) false false false) ∧
    ((z > 32767 ∨ z < -32768) ↔ addOverflows a b = true)

/-- R63: the exact difference, its substitute on Overflow, and Overflow's condition on the subtractor's adder. -/
def Obligations.IntegerSubtractAnswer : Prop :=
  ∀ (A B : Bus) (s : State),
    let a : IntBits := A.extractLsb' 0 16
    let b : IntBits := B.extractLsb' 0 16
    let z : Int := a.toInt - b.toInt
    decode ⟨0x10, A, B⟩ = .ok (.isub a b) ∧
    exec (.isub a b) s = .next
      (if z > 32767 then s.answered 0b00 0x7FFF true false false
       else if z < -32768 then s.answered 0b00 0x8000 true false false
       else s.answered 0b00 ((a + ~~~b + 1).setWidth 64) false false false) ∧
    ((z > 32767 ∨ z < -32768) ↔ subOverflows a b = true)

/-- R64: negation, Overflow only for the pattern `0x8000`; bus `B` is ignored. -/
def Obligations.IntegerNegateAnswer : Prop :=
  ∀ (A B : Bus) (s : State),
    let a : IntBits := A.extractLsb' 0 16
    decode ⟨0x50, A, B⟩ = .ok (.ineg a) ∧
    exec (.ineg a) s = .next
      (if a = 0x8000 then s.answered 0b00 0x7FFF true false false
       else s.answered 0b00 ((-a).setWidth 64) false false false)

/-- R65: the quotient truncated toward zero, Overflow only on `-32768 \ -1`, and a zero divisor's Single substitute. -/
def Obligations.IntegerDivideAnswer : Prop :=
  ∀ (A B : Bus) (s : State),
    let a : IntBits := A.extractLsb' 0 16
    let b : IntBits := B.extractLsb' 0 16
    decode ⟨0x30, A, B⟩ = .ok (.idiv a b) ∧
    exec (.idiv a b) s = .next
      (if b = 0 then
         (if a.toInt < 0 then s.answered 0b01 0xFFFFFFFF false true false
          else s.answered 0b01 0xFF7FFFFF false true false)
       else if a.toInt = -32768 ∧ b.toInt = -1 then s.answered 0b00 0x7FFF true false false
       else s.answered 0b00 ((BitVec.ofInt 16 (a.toInt.tdiv b.toInt)).setWidth 64) false false false)

/-- R66: the remainder, its agreement with the adjusted modulo, its bound and sign, and a zero divisor's substitute;
never Overflow. -/
def Obligations.IntegerRemainderAnswer : Prop :=
  ∀ (A B : Bus) (s : State),
    let a : IntBits := A.extractLsb' 0 16
    let b : IntBits := B.extractLsb' 0 16
    let r : Int := a.toInt - b.toInt * a.toInt.tdiv b.toInt
    decode ⟨0x40, A, B⟩ = .ok (.imod a b) ∧
    exec (.imod a b) s = .next
      (if b = 0 then
         (if a.toInt < 0 then s.answered 0b01 0xFFFFFFFF false true false
          else s.answered 0b01 0xFF7FFFFF false true false)
       else s.answered 0b00 ((BitVec.ofInt 16 r).setWidth 64) false false false) ∧
    (b ≠ 0 → r = adjustedModulo a.toInt b.toInt ∧ |r| < |b.toInt| ∧ (r = 0 ∨ (r < 0 ↔ a.toInt < 0)))

/-- Property 2 of `95_test_vectors.md` section 3: quotient and remainder recompose the dividend. -/
def Obligations.QuotientAndRemainderRecompose : Prop :=
  ∀ (a b : IntBits) (s : State), b ≠ 0 → ¬(a.toInt = -32768 ∧ b.toInt = -1) →
    ∃ q r : IntBits,
      exec (.idiv a b) s = .next (s.answered 0b00 (q.setWidth 64) false false false) ∧
      exec (.imod a b) s = .next (s.answered 0b00 (r.setWidth 64) false false false) ∧
      q.toInt * b.toInt + r.toInt = a.toInt ∧ |r.toInt| < |b.toInt|

/-- R67: the signed order, which the three-step byte comparison decides too. -/
def Obligations.IntegerGreaterAnswer : Prop :=
  ∀ (A B : Bus) (s : State),
    let a : IntBits := A.extractLsb' 0 16
    let b : IntBits := B.extractLsb' 0 16
    decode ⟨0x60, A, B⟩ = .ok (.igt a b) ∧
    exec (.igt a b) s = .next (s.answered 0b00 0 false false (decide (a.toInt > b.toInt))) ∧
    stepwiseGreater a b = decide (a.toInt > b.toInt)

/-- R68: equality of the low 16 bits, which is equality of signs, of `[14:8]` and of `[7:0]`. -/
def Obligations.IntegerEqualAnswer : Prop :=
  ∀ (A B : Bus) (s : State),
    let a : IntBits := A.extractLsb' 0 16
    let b : IntBits := B.extractLsb' 0 16
    decode ⟨0x70, A, B⟩ = .ok (.ieq a b) ∧
    exec (.ieq a b) s = .next (s.answered 0b00 0 false false (decide (A.toNat % 65536 = B.toNat % 65536))) ∧
    (A.toNat % 65536 = B.toNat % 65536 ↔
      a.msb = b.msb ∧ a.extractLsb' 8 7 = b.extractLsb' 8 7 ∧ a.extractLsb' 0 8 = b.extractLsb' 0 8)

/-! ### fp_renormalizer -/

/-- R85: the operands of RNRM, and its operation `renorm(f, exp, man, neg)`. -/
def Obligations.RenormalizeCommandAnswer : Prop :=
  ∀ (A B : Bus) (s : State),
    decode ⟨0xA1, A, B⟩ = .ok (.rnrmS (A.extractLsb' 0 32) (B.extractLsb' 0 16) (B.getLsbD 16)) ∧
    decode ⟨0xA2, A, B⟩ = .ok (.rnrmD A (B.extractLsb' 0 16) (B.getLsbD 16)) ∧
    (∀ (man : BitVec 32) (exp : BitVec 16) (neg : Bool),
      exec (.rnrmS man exp neg) s = .next (s.complete (renorm .sng ⟨exp.toInt, man.toNat, neg⟩))) ∧
    (∀ (man : BitVec 64) (exp : BitVec 16) (neg : Bool),
      exec (.rnrmD man exp neg) s = .next (s.complete (renorm .dbl ⟨exp.toInt, man.toNat, neg⟩)))

/-- R81, R82, R83: `renorm` in closed form: a shift by the leading zeros, the guard byte rounded to nearest with ties
to even, a rounding carry, the range check on the final exponent, packing. -/
def Obligations.RenormalizerClosedForm : Prop :=
  ∀ (f : Fmt) (t : Triple), t.man < 2 ^ f.W →
    let z : Nat := f.W - 1 - t.man.log2
    let m : Nat := t.man * 2 ^ z
    let g : Nat := m % 256
    let up : Nat := if g > 128 ∨ (g = 128 ∧ m / 256 % 2 = 1) then 1 else 0
    let carry : Prop := m / 256 + up = 2 ^ f.M
    let sg : Nat := if m / 256 + up = 2 ^ f.M then 2 ^ (f.M - 1) else m / 256 + up
    let e : Int := t.exp - z + (if m / 256 + up = 2 ^ f.M then 1 else 0)
    (t.man ≠ 0 → 2 ^ (f.W - 1) ≤ m ∧ m < 2 ^ f.W ∧ (m / 256 + up ≥ 2 ^ f.M ↔ carry)) ∧
    renorm f t =
      if t.man = 0 then ⟨true, 0, f.tag.code, false, false, false, false⟩
      else if e > 255 then ⟨true, maxMag f t.neg, f.tag.code, true, false, false, false⟩
      else if e ≤ 0 then ⟨true, 0, f.tag.code, false, false, false, false⟩
      else ⟨true, pack f e.toNat sg t.neg, f.tag.code, false, false, false, false⟩

/-- R86: renormalizing the unpacked form of a nonzero packed value gives the value back, with no signal. -/
def Obligations.RenormalizerRestoresUnpacked : Prop :=
  ∀ (f : Fmt) (x : Bus), x.toNat < 2 ^ f.W → isZero f x = false →
    renorm f (den f x) = ⟨true, x, f.tag.code, false, false, false, false⟩

/-- R83: what the guard byte does, case by case, and that the rounded significand is nearest, a tie being even. -/
def Obligations.GuardByteRoundsToNearestEven : Prop :=
  ∀ man : Nat,
    (man % 256 < 0x80 → roundsUp man = false) ∧
    (man % 256 = 0x80 → man / 256 % 2 = 0 → roundsUp man = false) ∧
    (man % 256 = 0x80 → man / 256 % 2 = 1 → roundsUp man = true) ∧
    (man % 256 > 0x80 → roundsUp man = true) ∧
    (let s : Nat := man / 256 + (roundsUp man).toNat
     |(256 * s : Int) - man| ≤ 128 ∧ (|(256 * s : Int) - man| = 128 → s % 2 = 0))

/-! ### denormalized_fp_adder -/

/-- R90, R96: the four forms of FADD and the operands they add, a Single widened beside a Double. -/
def Obligations.FloatAddAnswer : Prop :=
  ∀ (A B : Bus) (s : State),
    decode ⟨0x05, A, B⟩ = .ok (.faddS (A.extractLsb' 0 32) (B.extractLsb' 0 32)) ∧
    decode ⟨0x06, A, B⟩ = .ok (.faddSD (A.extractLsb' 0 32) B) ∧
    decode ⟨0x09, A, B⟩ = .ok (.faddDS A (B.extractLsb' 0 32)) ∧
    decode ⟨0x0A, A, B⟩ = .ok (.faddD A B) ∧
    (∀ a b : SngBits, exec (.faddS a b) s =
      .next (s.complete (fadd Params.ofUnit .sng (a.setWidth 64) (b.setWidth 64)))) ∧
    (∀ (a : SngBits) (b : DblBits), exec (.faddSD a b) s =
      .next (s.complete (fadd Params.ofUnit .dbl (a.setWidth 64 <<< 32) b))) ∧
    (∀ (a : DblBits) (b : SngBits), exec (.faddDS a b) s =
      .next (s.complete (fadd Params.ofUnit .dbl a (b.setWidth 64 <<< 32)))) ∧
    (∀ a b : DblBits, exec (.faddD a b) s = .next (s.complete (fadd Params.ofUnit .dbl a b)))

/-- R92: a zero operand of any shape leaves the other operand bit for bit; two zeros give the canonical zero; two
nonzero operands are unpacked, added and renormalized. -/
def Obligations.AdderZeroOperands : Prop :=
  ∀ (p : Params) (f : Fmt) (a b : Bus),
    (isZero f a = true → isZero f b = true →
      fadd p f a b = ⟨true, 0, f.tag.code, false, false, false, false⟩) ∧
    (isZero f a = false → isZero f b = true →
      fadd p f a b = ⟨true, a, f.tag.code, false, false, false, false⟩) ∧
    (isZero f a = true → isZero f b = false →
      fadd p f a b = ⟨true, b, f.tag.code, false, false, false, false⟩) ∧
    (isZero f a = false → isZero f b = false →
      fadd p f a b = renorm f (addTriple p f (den f a) (den f b)))

/-- R93, R94: same signs: the smaller exponent's mantissa shifted right by the difference, truncating, added, and one
truncating shift on a carry out of the working width; in either order of the operands. -/
def Obligations.AdderSameSigns : Prop :=
  ∀ (p : Params) (f : Fmt) (a b : Bus), isZero f a = false → isZero f b = false → sgn f a = sgn f b →
    expb f b ≤ expb f a →
    let man : Nat := sig f a * 256 + sig f b * 256 / 2 ^ (expb f a - expb f b)
    let sum : Latch :=
      if man ≥ 2 ^ f.W then renorm f ⟨expb f a + 1, man / 2, sgn f a⟩
      else renorm f ⟨expb f a, man, sgn f a⟩
    fadd p f a b = sum ∧ fadd p f b a = sum

/-- R93, R95: different signs: the larger aligned mantissa minus the smaller, the sign of the larger, and `SUBQ`
exactly when a nonzero bit was shifted away; in either order of the operands. -/
def Obligations.AdderDifferentSigns : Prop :=
  ∀ (p : Params) (f : Fmt) (a b : Bus), isZero f a = false → isZero f b = false → sgn f a ≠ sgn f b →
    expb f b ≤ expb f a →
    let d : Nat := expb f a - expb f b
    let mh : Nat := sig f a * 256
    let ml : Nat := sig f b * 256 / 2 ^ d
    let lost : Prop := sig f b * 256 % 2 ^ d ≠ 0
    (lost → fadd p f a b = renorm f ⟨expb f a, p.subq f (mh - ml), sgn f a⟩) ∧
    (¬lost → ml ≤ mh → fadd p f a b = renorm f ⟨expb f a, mh - ml, sgn f a⟩) ∧
    (¬lost → mh < ml → fadd p f a b = renorm f ⟨expb f a, ml - mh, sgn f b⟩) ∧
    fadd p f b a = fadd p f a b

/-- R96: FADD is commutative, for every form and every choice of the parameters. -/
def Obligations.FloatAddCommutes : Prop :=
  (∀ (p : Params) (f : Fmt) (a b : Bus), fadd p f a b = fadd p f b a) ∧
  (∀ (a b : SngBits) (s : State), exec (.faddS a b) s = exec (.faddS b a) s) ∧
  (∀ (a : SngBits) (b : DblBits) (s : State), exec (.faddSD a b) s = exec (.faddDS b a) s) ∧
  (∀ (a b : DblBits) (s : State), exec (.faddD a b) s = exec (.faddD b a) s)

/-- R93, R95: a sum of operands whose exponents differ by at most 8 does not depend on the open parameters. -/
def Obligations.CloseOperandsIgnoreCorrection : Prop :=
  ∀ (p p' : Params) (f : Fmt) (a b : Bus), expb f a ≤ expb f b + 8 → expb f b ≤ expb f a + 8 →
    fadd p f a b = fadd p' f a b

/-- R28, R93 to R95: before rounding, the sum of operands whose exponents differ by at most 7 is exact. -/
def Obligations.CloseOperandsAddExactly : Prop :=
  ∀ (p : Params) (f : Fmt) (a b : Bus), isZero f a = false → isZero f b = false →
    expb f a ≤ expb f b + 7 → expb f b ≤ expb f a + 7 →
    fadd p f a b = renorm f (addTriple p f (den f a) (den f b)) ∧
    (addTriple p f (den f a) (den f b)).val f = val f a + val f b

/-- R91, R97: the four forms of FSUB add the second operand with its sign bit inverted, after promotion. -/
def Obligations.FloatSubtractAnswer : Prop :=
  ∀ (A B : Bus) (s : State),
    decode ⟨0x15, A, B⟩ = .ok (.fsubS (A.extractLsb' 0 32) (B.extractLsb' 0 32)) ∧
    decode ⟨0x16, A, B⟩ = .ok (.fsubSD (A.extractLsb' 0 32) B) ∧
    decode ⟨0x19, A, B⟩ = .ok (.fsubDS A (B.extractLsb' 0 32)) ∧
    decode ⟨0x1A, A, B⟩ = .ok (.fsubD A B) ∧
    (∀ a b : SngBits, exec (.fsubS a b) s =
      .next (s.complete (fadd Params.ofUnit .sng (a.setWidth 64) (b.setWidth 64 ^^^ 0x800000)))) ∧
    (∀ (a : SngBits) (b : DblBits), exec (.fsubSD a b) s =
      .next (s.complete (fadd Params.ofUnit .dbl (a.setWidth 64 <<< 32) (b ^^^ 0x80000000000000)))) ∧
    (∀ (a : DblBits) (b : SngBits), exec (.fsubDS a b) s =
      .next (s.complete (fadd Params.ofUnit .dbl a (b.setWidth 64 <<< 32 ^^^ 0x80000000000000)))) ∧
    (∀ a b : DblBits, exec (.fsubD a b) s =
      .next (s.complete (fadd Params.ofUnit .dbl a (b ^^^ 0x80000000000000))))

/-- R97, R92: `x - x` is the canonical zero; `0 - x` is `x` with its sign inverted and `x - 0` is `x`, for nonzero `x`. -/
def Obligations.SubtractSelfAndZero : Prop :=
  ∀ s : State,
    (∀ x : SngBits, exec (.fsubS x x) s = .next (s.answered 0b01 0 false false false)) ∧
    (∀ x : DblBits, exec (.fsubD x x) s = .next (s.answered 0b10 0 false false false)) ∧
    (∀ x z : SngBits, x.toNat / 2 ^ 24 ≠ 0 → z.toNat / 2 ^ 24 = 0 →
      exec (.fsubS z x) s = .next (s.answered 0b01 (x.setWidth 64 ^^^ 0x800000) false false false) ∧
      exec (.fsubS x z) s = .next (s.answered 0b01 (x.setWidth 64) false false false)) ∧
    (∀ x z : DblBits, x.toNat / 2 ^ 56 ≠ 0 → z.toNat / 2 ^ 56 = 0 →
      exec (.fsubD z x) s = .next (s.answered 0b10 (x ^^^ 0x80000000000000) false false false) ∧
      exec (.fsubD x z) s = .next (s.answered 0b10 x false false false))

/-! ### denormalized_fp_multiplier -/

/-- R100, R104: the four forms of FMUL and the operands they multiply. -/
def Obligations.FloatMultiplyAnswer : Prop :=
  ∀ (A B : Bus) (s : State),
    decode ⟨0x25, A, B⟩ = .ok (.fmulS (A.extractLsb' 0 32) (B.extractLsb' 0 32)) ∧
    decode ⟨0x26, A, B⟩ = .ok (.fmulSD (A.extractLsb' 0 32) B) ∧
    decode ⟨0x29, A, B⟩ = .ok (.fmulDS A (B.extractLsb' 0 32)) ∧
    decode ⟨0x2A, A, B⟩ = .ok (.fmulD A B) ∧
    (∀ a b : SngBits, exec (.fmulS a b) s =
      .next (s.complete (fmul Params.ofUnit .sng (a.setWidth 64) (b.setWidth 64)))) ∧
    (∀ (a : SngBits) (b : DblBits), exec (.fmulSD a b) s =
      .next (s.complete (fmul Params.ofUnit .dbl (a.setWidth 64 <<< 32) b))) ∧
    (∀ (a : DblBits) (b : SngBits), exec (.fmulDS a b) s =
      .next (s.complete (fmul Params.ofUnit .dbl a (b.setWidth 64 <<< 32)))) ∧
    (∀ a b : DblBits, exec (.fmulD a b) s = .next (s.complete (fmul Params.ofUnit .dbl a b)))

/-- R101: a zero operand of any shape makes the product the canonical zero, with no signal. -/
def Obligations.MultiplierZeroShortCircuit : Prop :=
  ∀ (p : Params) (f : Fmt) (a b : Bus), (isZero f a = true ∨ isZero f b = true) →
    fmul p f a b = ⟨true, 0, f.tag.code, false, false, false, false⟩

/-- R102, R103, R104: the product of two nonzero operands: shifted right, truncating, by `W` places when it reaches
`2^(2W-1)` and by `W - 1` otherwise, which leaves it normalized; corrected by `MULQ`; renormalized. -/
def Obligations.ProductRangeShift : Prop :=
  ∀ (p : Params) (f : Fmt) (a b : Bus), isZero f a = false → isZero f b = false →
    let prod : Nat := sig f a * 256 * (sig f b * 256)
    let k : Nat := if prod ≥ 2 ^ (2 * f.W - 1) then f.W else f.W - 1
    let m : Nat := prod / 2 ^ k
    2 ^ (f.W - 1) ≤ m ∧ m < 2 ^ f.W ∧
    fmul p f a b =
      renorm f ⟨(expb f a : Int) + expb f b - f.bias - 8 + k, p.mulq f m, sgn f a ^^ sgn f b⟩

/-- R104: FMUL is commutative, for every form and every choice of the parameters. -/
def Obligations.FloatMultiplyCommutes : Prop :=
  (∀ (p : Params) (f : Fmt) (a b : Bus), fmul p f a b = fmul p f b a) ∧
  (∀ (a b : SngBits) (s : State), exec (.fmulS a b) s = exec (.fmulS b a) s) ∧
  (∀ (a : SngBits) (b : DblBits) (s : State), exec (.fmulSD a b) s = exec (.fmulDS b a) s) ∧
  (∀ (a b : DblBits) (s : State), exec (.fmulD a b) s = exec (.fmulD b a) s)

/-- R104: under the default `MULQ` a product with 1 is the other operand, bit for bit. The machine's own `MULQ` is
open; this is a statement about the default alone. -/
def Obligations.DefaultMultiplyByOne : Prop :=
  ∀ (f : Fmt) (x : Bus), x.toNat < 2 ^ f.W → isZero f x = false →
    fmul Params.default f x (pack f 129 (2 ^ (f.M - 1)) false) = ⟨true, x, f.tag.code, false, false, false, false⟩

/-! ### denormalized_fp_divider -/

/-- R110, R114: the four forms of FDIV and the operands they divide. -/
def Obligations.FloatDivideAnswer : Prop :=
  ∀ (A B : Bus) (s : State),
    decode ⟨0x35, A, B⟩ = .ok (.fdivS (A.extractLsb' 0 32) (B.extractLsb' 0 32)) ∧
    decode ⟨0x36, A, B⟩ = .ok (.fdivSD (A.extractLsb' 0 32) B) ∧
    decode ⟨0x39, A, B⟩ = .ok (.fdivDS A (B.extractLsb' 0 32)) ∧
    decode ⟨0x3A, A, B⟩ = .ok (.fdivD A B) ∧
    (∀ a b : SngBits, exec (.fdivS a b) s =
      .next (s.complete (fdiv Params.ofUnit .sng (a.setWidth 64) (b.setWidth 64)))) ∧
    (∀ (a : SngBits) (b : DblBits), exec (.fdivSD a b) s =
      .next (s.complete (fdiv Params.ofUnit .dbl (a.setWidth 64 <<< 32) b))) ∧
    (∀ (a : DblBits) (b : SngBits), exec (.fdivDS a b) s =
      .next (s.complete (fdiv Params.ofUnit .dbl a (b.setWidth 64 <<< 32)))) ∧
    (∀ a b : DblBits, exec (.fdivD a b) s = .next (s.complete (fdiv Params.ofUnit .dbl a b)))

/-- R111, R112: the divisor is tested first and its zero signals DivisionByZero with the dividend's sign bit, even of a
zero dividend; then a zero dividend gives the canonical zero with no signal. R31: the four constants. -/
def Obligations.DividerZeroOperands : Prop :=
  maxMag .sng false = 0xFF7FFFFF ∧ maxMag .sng true = 0xFFFFFFFF ∧
  maxMag .dbl false = 0xFF7FFFFFFFFFFFFF ∧ maxMag .dbl true = 0xFFFFFFFFFFFFFFFF ∧
  (∀ (f : Fmt) (neg : Bool), expb f (maxMag f neg) = 255 ∧ frac f (maxMag f neg) = 2 ^ (f.M - 1) - 1 ∧
    sgn f (maxMag f neg) = neg) ∧
  ∀ (p : Params) (f : Fmt) (a b : Bus),
    (isZero f b = true → sgn f a = false →
      fdiv p f a b = ⟨true, maxMag f false, f.tag.code, false, true, false, false⟩) ∧
    (isZero f b = true → sgn f a = true →
      fdiv p f a b = ⟨true, maxMag f true, f.tag.code, false, true, false, false⟩) ∧
    (isZero f b = false → isZero f a = true →
      fdiv p f a b = ⟨true, 0, f.tag.code, false, false, false, false⟩)

/-- R113: the quotient of two nonzero operands has the exponent `ea - eb + 129` in both formats, and under the default
`DIVQ` it is the exact truncated quotient, which the restoring division finds digit by digit, in `(2^(W-2), 2^W)`. -/
def Obligations.RestoringDivisionFindsQuotient : Prop :=
  (∀ (p : Params) (f : Fmt) (a b : Bus), isZero f a = false → isZero f b = false →
    fdiv p f a b = renorm f
      ⟨(expb f a : Int) - expb f b + 129, p.divq f (sig f a * 256) (sig f b * 256), sgn f a ^^ sgn f b⟩) ∧
  (∀ (f : Fmt) (ma mb : Nat), Normalized f ma → Normalized f mb →
    Params.default.divq f ma mb = ma * 2 ^ (f.W - 1) / mb ∧
    restoringDivide f ma mb = ma * 2 ^ (f.W - 1) / mb ∧
    restoringDivide f ma mb < 2 ^ f.W ∧
    (2 ^ (f.W - 1) ≤ restoringDivide f ma mb ↔ mb ≤ ma)) ∧
  (∀ (f : Fmt) (a b : Bus), 2 ^ (f.W - 2) < restoringDivide f (sig f a * 256) (sig f b * 256))

/-- R114: under the default `DIVQ`, `x / x` is 1 and `x / 1` is `x`. The machine's own `DIVQ` is open; this is a
statement about the default alone. -/
def Obligations.DefaultDivideBySelfAndOne : Prop :=
  ∀ (f : Fmt) (x : Bus), x.toNat < 2 ^ f.W → isZero f x = false →
    fdiv Params.default f x x =
      ⟨true, pack f 129 (2 ^ (f.M - 1)) false, f.tag.code, false, false, false, false⟩ ∧
    fdiv Params.default f x (pack f 129 (2 ^ (f.M - 1)) false) =
      ⟨true, x, f.tag.code, false, false, false, false⟩

/-! ### fp_comparator -/

/-- R122, R124: the eight words of FGT and the operands they read, bus bits above them ignored; `T` is the order of the
exact values of the original operands, in all eight forms. -/
def Obligations.FloatGreaterIsExact : Prop :=
  (∀ A B : Bus,
    decode ⟨0x61, A, B⟩ = .ok (.fgtIS (A.extractLsb' 0 16) (B.extractLsb' 0 32)) ∧
    decode ⟨0x62, A, B⟩ = .ok (.fgtID (A.extractLsb' 0 16) B) ∧
    decode ⟨0x64, A, B⟩ = .ok (.fgtSI (A.extractLsb' 0 32) (B.extractLsb' 0 16)) ∧
    decode ⟨0x65, A, B⟩ = .ok (.fgtS (A.extractLsb' 0 32) (B.extractLsb' 0 32)) ∧
    decode ⟨0x66, A, B⟩ = .ok (.fgtSD (A.extractLsb' 0 32) B) ∧
    decode ⟨0x68, A, B⟩ = .ok (.fgtDI A (B.extractLsb' 0 16)) ∧
    decode ⟨0x69, A, B⟩ = .ok (.fgtDS A (B.extractLsb' 0 32)) ∧
    decode ⟨0x6A, A, B⟩ = .ok (.fgtD A B)) ∧
  ∀ s : State,
    (∀ (a : IntBits) (b : SngBits), exec (.fgtIS a b) s =
      .next (s.answered 0b00 0 false false (decide ((Operand.int a).val > (Operand.sng b).val)))) ∧
    (∀ (a : IntBits) (b : DblBits), exec (.fgtID a b) s =
      .next (s.answered 0b00 0 false false (decide ((Operand.int a).val > (Operand.dbl b).val)))) ∧
    (∀ (a : SngBits) (b : IntBits), exec (.fgtSI a b) s =
      .next (s.answered 0b00 0 false false (decide ((Operand.sng a).val > (Operand.int b).val)))) ∧
    (∀ (a b : SngBits), exec (.fgtS a b) s =
      .next (s.answered 0b00 0 false false (decide ((Operand.sng a).val > (Operand.sng b).val)))) ∧
    (∀ (a : SngBits) (b : DblBits), exec (.fgtSD a b) s =
      .next (s.answered 0b00 0 false false (decide ((Operand.sng a).val > (Operand.dbl b).val)))) ∧
    (∀ (a : DblBits) (b : IntBits), exec (.fgtDI a b) s =
      .next (s.answered 0b00 0 false false (decide ((Operand.dbl a).val > (Operand.int b).val)))) ∧
    (∀ (a : DblBits) (b : SngBits), exec (.fgtDS a b) s =
      .next (s.answered 0b00 0 false false (decide ((Operand.dbl a).val > (Operand.sng b).val)))) ∧
    (∀ (a b : DblBits), exec (.fgtD a b) s =
      .next (s.answered 0b00 0 false false (decide ((Operand.dbl a).val > (Operand.dbl b).val))))

/-- R123, R124: the eight words of FEQ and the operands they read, bus bits above them ignored; `T` is the equality of
the exact values of the original operands, in all eight forms. -/
def Obligations.FloatEqualIsExact : Prop :=
  (∀ A B : Bus,
    decode ⟨0x71, A, B⟩ = .ok (.feqIS (A.extractLsb' 0 16) (B.extractLsb' 0 32)) ∧
    decode ⟨0x72, A, B⟩ = .ok (.feqID (A.extractLsb' 0 16) B) ∧
    decode ⟨0x74, A, B⟩ = .ok (.feqSI (A.extractLsb' 0 32) (B.extractLsb' 0 16)) ∧
    decode ⟨0x75, A, B⟩ = .ok (.feqS (A.extractLsb' 0 32) (B.extractLsb' 0 32)) ∧
    decode ⟨0x76, A, B⟩ = .ok (.feqSD (A.extractLsb' 0 32) B) ∧
    decode ⟨0x78, A, B⟩ = .ok (.feqDI A (B.extractLsb' 0 16)) ∧
    decode ⟨0x79, A, B⟩ = .ok (.feqDS A (B.extractLsb' 0 32)) ∧
    decode ⟨0x7A, A, B⟩ = .ok (.feqD A B)) ∧
  ∀ s : State,
    (∀ (a : IntBits) (b : SngBits), exec (.feqIS a b) s =
      .next (s.answered 0b00 0 false false (decide ((Operand.int a).val = (Operand.sng b).val)))) ∧
    (∀ (a : IntBits) (b : DblBits), exec (.feqID a b) s =
      .next (s.answered 0b00 0 false false (decide ((Operand.int a).val = (Operand.dbl b).val)))) ∧
    (∀ (a : SngBits) (b : IntBits), exec (.feqSI a b) s =
      .next (s.answered 0b00 0 false false (decide ((Operand.sng a).val = (Operand.int b).val)))) ∧
    (∀ (a b : SngBits), exec (.feqS a b) s =
      .next (s.answered 0b00 0 false false (decide ((Operand.sng a).val = (Operand.sng b).val)))) ∧
    (∀ (a : SngBits) (b : DblBits), exec (.feqSD a b) s =
      .next (s.answered 0b00 0 false false (decide ((Operand.sng a).val = (Operand.dbl b).val)))) ∧
    (∀ (a : DblBits) (b : IntBits), exec (.feqDI a b) s =
      .next (s.answered 0b00 0 false false (decide ((Operand.dbl a).val = (Operand.int b).val)))) ∧
    (∀ (a : DblBits) (b : SngBits), exec (.feqDS a b) s =
      .next (s.answered 0b00 0 false false (decide ((Operand.dbl a).val = (Operand.sng b).val)))) ∧
    (∀ (a b : DblBits), exec (.feqD a b) s =
      .next (s.answered 0b00 0 false false (decide ((Operand.dbl a).val = (Operand.dbl b).val))))

/-- R122, R26: the order the comparator tests in: zeros of any shape first, then signs, then magnitude words,
reversed for two negatives. -/
def Obligations.ComparatorProcedure : Prop :=
  ∀ (f : Fmt) (a b : Bus),
    (isZero f a = true → (fgt f a b = true ↔ isZero f b = false ∧ sgn f b = true)) ∧
    (isZero f a = false → isZero f b = true → (fgt f a b = true ↔ sgn f a = false)) ∧
    (isZero f a = false → isZero f b = false → sgn f a ≠ sgn f b → (fgt f a b = true ↔ sgn f b = true)) ∧
    (isZero f a = false → isZero f b = false → sgn f a = false → sgn f b = false →
      (fgt f a b = true ↔ (absw f b).toNat < (absw f a).toNat)) ∧
    (isZero f a = false → isZero f b = false → sgn f a = true → sgn f b = true →
      (fgt f a b = true ↔ (absw f a).toNat < (absw f b).toNat))

/-! ### The converters -/

/-- R130, R131: I2F is exact in both formats, gives the canonical zero for 0 and the exponent byte
`129 + floor(log2 |v|)` otherwise, never a signal; bus `B` is ignored. -/
def Obligations.IntToFloatIsExact : Prop :=
  ∀ (A B : Bus) (s : State),
    let n : IntBits := A.extractLsb' 0 16
    decode ⟨0x81, A, B⟩ = .ok (.i2fS n) ∧
    decode ⟨0x82, A, B⟩ = .ok (.i2fD n) ∧
    exec (.i2fS n) s = .next (s.answered 0b01 (i2f .sng n) false false false) ∧
    exec (.i2fD n) s = .next (s.answered 0b10 (i2f .dbl n) false false false) ∧
    (∀ f : Fmt, val f (i2f f n) = (n.toInt : ℚ) ∧ (n = 0 → i2f f n = 0) ∧
      (n ≠ 0 → expb f (i2f f n) = 129 + n.toInt.natAbs.log2))

/-- R132: F2I rounds to the nearest integer, ties away from zero, and range-checks it as a signed Integer. -/
def Obligations.FloatToIntSigned : Prop :=
  ∀ (A B : Bus) (s : State),
    let a : SngBits := A.extractLsb' 0 32
    decode ⟨0x84, A, B⟩ = .ok (.f2iS a) ∧
    decode ⟨0x88, A, B⟩ = .ok (.f2iD A) ∧
    (∃ n : ℤ, NearestAway (Operand.sng a).val n ∧
      exec (.f2iS a) s = .next
        (if n > 32767 then s.answered 0b00 0x7FFF true false false
         else if n < -32768 then s.answered 0b00 0x8000 true false false
         else s.answered 0b00 ((BitVec.ofInt 16 n).setWidth 64) false false false)) ∧
    (∃ n : ℤ, NearestAway (Operand.dbl A).val n ∧
      exec (.f2iD A) s = .next
        (if n > 32767 then s.answered 0b00 0x7FFF true false false
         else if n < -32768 then s.answered 0b00 0x8000 true false false
         else s.answered 0b00 ((BitVec.ofInt 16 n).setWidth 64) false false false))

/-- R133: F2IU rounds the same way and accepts -32768 to 65535. -/
def Obligations.FloatToIntUnsigned : Prop :=
  ∀ (A B : Bus) (s : State),
    let a : SngBits := A.extractLsb' 0 32
    decode ⟨0x94, A, B⟩ = .ok (.f2iuS a) ∧
    decode ⟨0x98, A, B⟩ = .ok (.f2iuD A) ∧
    (∃ n : ℤ, NearestAway (Operand.sng a).val n ∧
      exec (.f2iuS a) s = .next
        (if n > 65535 then s.answered 0b00 0x7FFF true false false
         else if n < -32768 then s.answered 0b00 0x8000 true false false
         else s.answered 0b00 ((BitVec.ofInt 16 n).setWidth 64) false false false)) ∧
    (∃ n : ℤ, NearestAway (Operand.dbl A).val n ∧
      exec (.f2iuD A) s = .next
        (if n > 65535 then s.answered 0b00 0x7FFF true false false
         else if n < -32768 then s.answered 0b00 0x8000 true false false
         else s.answered 0b00 ((BitVec.ofInt 16 n).setWidth 64) false false false))

/-- `95_test_vectors.md` 2.7: an Integer converted to either float format and back is itself, with no flag. -/
def Obligations.IntegerSurvivesFloatRoundTrip : Prop :=
  ∀ (n : IntBits) (s : State),
    exec (.f2iS ((i2f .sng n).extractLsb' 0 32)) s = .next (s.answered 0b00 (n.setWidth 64) false false false) ∧
    exec (.f2iD (i2f .dbl n)) s = .next (s.answered 0b00 (n.setWidth 64) false false false)

/-- R134: S2D moves the bytes up and keeps the value; a zero of any shape becomes the canonical zero; no signal. The
internal `widen` moves the bytes of a zero too. -/
def Obligations.SingleToDoubleIsExact : Prop :=
  ∀ (A B : Bus) (s : State),
    let a : SngBits := A.extractLsb' 0 32
    let d : Bus := if a.toNat / 2 ^ 24 = 0 then 0 else a.setWidth 64 <<< 32
    decode ⟨0x86, A, B⟩ = .ok (.s2d a) ∧
    exec (.s2d a) s = .next (s.answered 0b10 d false false false) ∧
    val .dbl d = (Operand.sng a).val ∧
    widen a = a.setWidth 64 <<< 32 ∧
    val .dbl (widen a) = (Operand.sng a).val

/-- R135: D2S keeps bytes 4 to 6, rounds on byte 3 alone to nearest with ties to even, carries into the exponent, and
overflows only from the largest one; a zero of any shape becomes the canonical zero. -/
def Obligations.DoubleToSingleRounds : Prop :=
  ∀ (A B : Bus) (s : State),
    let e : Nat := A.toNat / 2 ^ 56
    let neg : Bool := A.getLsbD 55
    let kept : Nat := 2 ^ 23 + A.toNat / 2 ^ 32 % 2 ^ 23
    let g : Nat := A.toNat / 2 ^ 24 % 256
    let up : Nat := if g > 128 ∨ (g = 128 ∧ kept % 2 = 1) then 1 else 0
    decode ⟨0x89, A, B⟩ = .ok (.d2s A) ∧
    exec (.d2s A) s = .next
      (if e = 0 then s.answered 0b01 0 false false false
       else if kept + up < 2 ^ 24 then
         s.answered 0b01 (BitVec.ofNat 64 (e * 2 ^ 24 + neg.toNat * 2 ^ 23 + (kept + up - 2 ^ 23))) false false false
       else if e = 255 then
         s.answered 0b01 (BitVec.ofNat 64 (255 * 2 ^ 24 + neg.toNat * 2 ^ 23 + (2 ^ 23 - 1))) true false false
       else s.answered 0b01 (BitVec.ofNat 64 ((e + 1) * 2 ^ 24 + neg.toNat * 2 ^ 23)) false false false)

/-- R135: narrowing a widened nonzero Single gives it back, with no signal. -/
def Obligations.NarrowRestoresWidened : Prop :=
  ∀ (x : SngBits) (s : State), x.toNat / 2 ^ 24 ≠ 0 →
    exec (.d2s (x.setWidth 64 <<< 32)) s = .next (s.answered 0b01 (x.setWidth 64) false false false)

/-! ### The whole machine -/

/-- R13 and the frame of every command: the answer is a function of the command and its operands alone; the whole latch
is written with it, no command is in progress after it, and nothing else changes. The same of every transaction, its
word legal or not. -/
def Obligations.CommandWritesLatchAndNothingElse : Prop :=
  (∀ i : Instr, ∃ l : Latch, l.valid = true ∧ l.ill = false ∧
    ∀ s : State, exec i s = .next { latch := l, inProgress := none, host := s.host }) ∧
  (∀ t : Transaction, ∃ l : Latch, l.valid = true ∧
    ∀ s : State, s.runCommand t = .next { latch := l, inProgress := none, host := s.host })

/-- R152: DivisionByZero is signalled exactly by a zero divisor, with the largest magnitude of a float format, and
never together with Overflow. -/
def Obligations.DivisionByZeroCauses : Prop :=
  ∀ (i : Instr) (s : State), ∃ s', exec i s = .next s' ∧
    (s'.latch.dbz = true ↔ i.zeroDivisor = true) ∧
    (s'.latch.dbz = true → s'.latch.ovf = false ∧ IsMaxMag s'.latch.tag s'.latch.val)

/-- R151, R12: only the listed commands signal Overflow, and only comparisons write the truth value. -/
def Obligations.OverflowAndTruthCauses : Prop :=
  ∀ (i : Instr) (s : State), ∃ s', exec i s = .next s' ∧
    (s'.latch.ovf = true → i.mayOverflow = true) ∧
    (s'.latch.t = true → i.isComparison = true)

/-- R12, R14, R18, R21, R32, R46, R151 to R153: every step keeps the form of the latch: one condition at most, a legal
tag, a value within its size, canonical zeros, the substitute of the flag shown, and reset contents until the first
completion. -/
def Obligations.StepKeepsLatchInvariant : Prop :=
  ∀ s s' : State, s.Inv → step s = .next s' → s'.Inv

/-- The reset state meets the invariant. -/
def Obligations.ResetMeetsLatchInvariant : Prop := State.reset.Inv

/-- R35, R13, R173, R178: an idle unit driven by a host that issues its commands one at a time, waits and reads, runs
every list of transactions, legal or not, to its end in four steps each, and `R` is then the last one's answer. The
four steps are the model's choice (log 3, log 4). -/
def Obligations.CommandSequenceRunsInOrder : Prop :=
  ∀ (ts : List Transaction) (s : State), s.inProgress = none → s.host = ts.flatMap hostScript →
    ∃ s', Host.Core.run Sys2Proof.core (4 * ts.length) s = .next s' ∧
      s'.host = [] ∧ s'.inProgress = none ∧
      (ts = [] → s'.latch = s.latch) ∧
      (∀ t, ts.getLast? = some t → AnsweredBy t s'.latch)
end

