-- ==== Sys2Proof/Laws/State.lean ====
section
/-! SUPPORT. One lemma per field per update of the state and of the latch, each true by rfl. -/

namespace Sys2Proof.Machine

@[simp] theorem written_valid (c : Condition) (tg : Tag) (v : Bus) : (Latch.written c tg v).valid = true := rfl
@[simp] theorem written_val (c : Condition) (tg : Tag) (v : Bus) : (Latch.written c tg v).val = v := rfl
@[simp] theorem written_tag (c : Condition) (tg : Tag) (v : Bus) : (Latch.written c tg v).tag = tg.code := rfl
@[simp] theorem written_ovf (c : Condition) (tg : Tag) (v : Bus) : (Latch.written c tg v).ovf = c.ovf := rfl
@[simp] theorem written_dbz (c : Condition) (tg : Tag) (v : Bus) : (Latch.written c tg v).dbz = c.dbz := rfl
@[simp] theorem written_ill (c : Condition) (tg : Tag) (v : Bus) : (Latch.written c tg v).ill = c.ill := rfl
@[simp] theorem written_t (c : Condition) (tg : Tag) (v : Bus) : (Latch.written c tg v).t = c.t := rfl

@[simp] theorem result_valid (tg : Tag) (v : Bus) : (result tg v).valid = true := rfl
@[simp] theorem result_val (tg : Tag) (v : Bus) : (result tg v).val = v := rfl
@[simp] theorem result_tag (tg : Tag) (v : Bus) : (result tg v).tag = tg.code := rfl
@[simp] theorem result_ovf (tg : Tag) (v : Bus) : (result tg v).ovf = false := rfl
@[simp] theorem result_dbz (tg : Tag) (v : Bus) : (result tg v).dbz = false := rfl
@[simp] theorem result_ill (tg : Tag) (v : Bus) : (result tg v).ill = false := rfl
@[simp] theorem result_t (tg : Tag) (v : Bus) : (result tg v).t = false := rfl

@[simp] theorem signalOverflow_valid (tg : Tag) (v : Bus) : (signalOverflow tg v).valid = true := rfl
@[simp] theorem signalOverflow_val (tg : Tag) (v : Bus) : (signalOverflow tg v).val = v := rfl
@[simp] theorem signalOverflow_tag (tg : Tag) (v : Bus) : (signalOverflow tg v).tag = tg.code := rfl
@[simp] theorem signalOverflow_ovf (tg : Tag) (v : Bus) : (signalOverflow tg v).ovf = true := rfl
@[simp] theorem signalOverflow_dbz (tg : Tag) (v : Bus) : (signalOverflow tg v).dbz = false := rfl
@[simp] theorem signalOverflow_ill (tg : Tag) (v : Bus) : (signalOverflow tg v).ill = false := rfl
@[simp] theorem signalOverflow_t (tg : Tag) (v : Bus) : (signalOverflow tg v).t = false := rfl

@[simp] theorem signalDivisionByZero_valid (tg : Tag) (v : Bus) : (signalDivisionByZero tg v).valid = true := rfl
@[simp] theorem signalDivisionByZero_val (tg : Tag) (v : Bus) : (signalDivisionByZero tg v).val = v := rfl
@[simp] theorem signalDivisionByZero_tag (tg : Tag) (v : Bus) : (signalDivisionByZero tg v).tag = tg.code := rfl
@[simp] theorem signalDivisionByZero_ovf (tg : Tag) (v : Bus) : (signalDivisionByZero tg v).ovf = false := rfl
@[simp] theorem signalDivisionByZero_dbz (tg : Tag) (v : Bus) : (signalDivisionByZero tg v).dbz = true := rfl
@[simp] theorem signalDivisionByZero_ill (tg : Tag) (v : Bus) : (signalDivisionByZero tg v).ill = false := rfl
@[simp] theorem signalDivisionByZero_t (tg : Tag) (v : Bus) : (signalDivisionByZero tg v).t = false := rfl

@[simp] theorem refuse_valid  : (refuse).valid = true := rfl
@[simp] theorem refuse_val  : (refuse).val = 0 := rfl
@[simp] theorem refuse_tag  : (refuse).tag = 0b00 := rfl
@[simp] theorem refuse_ovf  : (refuse).ovf = false := rfl
@[simp] theorem refuse_dbz  : (refuse).dbz = false := rfl
@[simp] theorem refuse_ill  : (refuse).ill = true := rfl
@[simp] theorem refuse_t  : (refuse).t = false := rfl

@[simp] theorem compared_valid (b : Bool) : (compared b).valid = true := rfl
@[simp] theorem compared_val (b : Bool) : (compared b).val = 0 := rfl
@[simp] theorem compared_tag (b : Bool) : (compared b).tag = 0b00 := rfl
@[simp] theorem compared_ovf (b : Bool) : (compared b).ovf = false := rfl
@[simp] theorem compared_dbz (b : Bool) : (compared b).dbz = false := rfl
@[simp] theorem compared_ill (b : Bool) : (compared b).ill = false := rfl
@[simp] theorem compared_t (b : Bool) : (compared b).t = b := rfl

@[simp] theorem latchReset_valid  : (Latch.reset).valid = false := rfl
@[simp] theorem latchReset_val  : (Latch.reset).val = 0 := rfl
@[simp] theorem latchReset_tag  : (Latch.reset).tag = 0b00 := rfl
@[simp] theorem latchReset_ovf  : (Latch.reset).ovf = false := rfl
@[simp] theorem latchReset_dbz  : (Latch.reset).dbz = false := rfl
@[simp] theorem latchReset_ill  : (Latch.reset).ill = false := rfl
@[simp] theorem latchReset_t  : (Latch.reset).t = false := rfl

@[simp] theorem complete_latch (s : State) (l : Latch) : (s.complete l).latch = l := rfl
@[simp] theorem complete_inProgress (s : State) (l : Latch) : (s.complete l).inProgress = none := rfl
@[simp] theorem complete_host (s : State) (l : Latch) : (s.complete l).host = s.host := rfl

@[simp] theorem accept_latch (s : State) (t : Transaction) (r : List HostInput) : (s.accept t r).latch = s.latch := rfl
@[simp] theorem accept_inProgress (s : State) (t : Transaction) (r : List HostInput) : (s.accept t r).inProgress = some t := rfl
@[simp] theorem accept_host (s : State) (t : Transaction) (r : List HostInput) : (s.accept t r).host = r := rfl

@[simp] theorem applyReset_latch (s : State) (r : List HostInput) : (s.applyReset r).latch = Latch.reset := rfl
@[simp] theorem applyReset_inProgress (s : State) (r : List HostInput) : (s.applyReset r).inProgress = none := rfl
@[simp] theorem applyReset_host (s : State) (r : List HostInput) : (s.applyReset r).host = r := rfl

@[simp] theorem withAccepted_latch (s : State) (t : Transaction) : (s.withAccepted t).latch = s.latch := rfl
@[simp] theorem withAccepted_inProgress (s : State) (t : Transaction) : (s.withAccepted t).inProgress = some t := rfl
@[simp] theorem withAccepted_host (s : State) (t : Transaction) : (s.withAccepted t).host = .waitReady :: s.host := rfl

@[simp] theorem answered_latch (s : State) (tag : BitVec 2) (v : Bus) (o d t : Bool) : (s.answered tag v o d t).latch = ⟨true, v, tag, o, d, false, t⟩ := rfl
@[simp] theorem answered_inProgress (s : State) (tag : BitVec 2) (v : Bus) (o d t : Bool) : (s.answered tag v o d t).inProgress = none := rfl
@[simp] theorem answered_host (s : State) (tag : BitVec 2) (v : Bus) (o d t : Bool) : (s.answered tag v o d t).host = s.host := rfl

@[simp] theorem refusedWord_latch (s : State) : (s.refusedWord).latch = refuse := rfl
@[simp] theorem refusedWord_inProgress (s : State) : (s.refusedWord).inProgress = none := rfl
@[simp] theorem refusedWord_host (s : State) : (s.refusedWord).host = s.host := rfl

@[simp] theorem reset_latch_of_state  : (State.reset).latch = Latch.reset := rfl
@[simp] theorem reset_inProgress_of_state  : (State.reset).inProgress = none := rfl
@[simp] theorem reset_host_of_state  : (State.reset).host = [] := rfl

/-- A latch written with no signal is an answer. -/
theorem complete_result (s : State) (tg : Tag) (v : Bus) :
    s.complete (result tg v) = s.answered tg.code v false false false := rfl

theorem complete_signalOverflow (s : State) (tg : Tag) (v : Bus) :
    s.complete (signalOverflow tg v) = s.answered tg.code v true false false := rfl

theorem complete_signalDivisionByZero (s : State) (tg : Tag) (v : Bus) :
    s.complete (signalDivisionByZero tg v) = s.answered tg.code v false true false := rfl

theorem complete_compared (s : State) (b : Bool) :
    s.complete (compared b) = s.answered 0b00 0 false false b := rfl

theorem complete_refuse (s : State) : s.complete refuse = s.refusedWord := rfl

/-- Completing twice is completing with the later latch: no result builds on an earlier one (R13). -/
@[simp] theorem complete_complete (s : State) (l m : Latch) : (s.complete l).complete m = s.complete m := rfl

/-- `cmd_ready` is 1 after a completion and 0 after an acceptance (R173). -/
@[simp] theorem cmdReady_complete (s : State) (l : Latch) : (s.complete l).cmdReady = true := rfl

@[simp] theorem cmdReady_accept (s : State) (t : Transaction) (r : List HostInput) :
    (s.accept t r).cmdReady = false := rfl

end Sys2Proof.Machine
end

