-- ==== Sys2Proof/Laws/Format.lean ====
section
/-! SUPPORT. The fields of packed values: bounds, what packing gives back, unpacked values are normalized, the exact conversions. -/

namespace Sys2Proof.Machine

theorem expb_lt (f : Fmt) (x : Bus) : expb f x < 256 := Nat.mod_lt _ (by decide)

theorem frac_lt (f : Fmt) (x : Bus) : frac f x < 2 ^ (f.M - 1) := Nat.mod_lt _ (by positivity)

theorem isZero_iff (f : Fmt) (x : Bus) : isZero f x = true ↔ expb f x = 0 := by simp [isZero]

theorem isZero_eq_false (f : Fmt) (x : Bus) : isZero f x = false ↔ expb f x ≠ 0 := by simp [isZero]

theorem expb_pos {f : Fmt} {x : Bus} (h : isZero f x = false) : 1 ≤ expb f x := by
  have := (isZero_eq_false f x).1 h
  omega

theorem sig_ge (f : Fmt) (x : Bus) : 2 ^ (f.M - 1) ≤ sig f x := Nat.le_add_right _ _

theorem sig_lt (f : Fmt) (x : Bus) : sig f x < 2 ^ f.M := by
  have := frac_lt f x
  cases f <;> simp only [sig, Fmt.M] at * <;> omega

theorem sgn_eq (f : Fmt) (x : Bus) : sgn f x = decide (x.toNat / 2 ^ (f.W - 9) % 2 = 1) := by
  simp only [sgn, BitVec.getLsbD, Nat.testBit_eq_decide_div_mod_eq]

/-- An unpacked mantissa is normalized with a guard byte of 0 (R29). -/
theorem den_normalized (f : Fmt) (x : Bus) : Normalized f (den f x).man := by
  have h1 := sig_ge f x
  have h2 := sig_lt f x
  cases f <;> simp only [Normalized, den, Nat.shiftLeft_eq, Fmt.W, Fmt.M] at * <;> omega

theorem den_man (f : Fmt) (x : Bus) : (den f x).man = sig f x * 256 := by simp [den, Nat.shiftLeft_eq]

@[simp] theorem den_exp (f : Fmt) (x : Bus) : (den f x).exp = expb f x := rfl

@[simp] theorem den_neg (f : Fmt) (x : Bus) : (den f x).neg = sgn f x := rfl

/-- The number a packed value is: exponent byte, sign bit and fraction side by side (R30). -/
theorem pack_toNat (f : Fmt) (e s : Nat) (neg : Bool) (he : e < 256) :
    (pack f e s neg).toNat = e * 2 ^ (f.W - 8) + neg.toNat * 2 ^ (f.W - 9) + s % 2 ^ (f.M - 1) := by
  have hs : s % 2 ^ (f.M - 1) < 2 ^ (f.M - 1) := Nat.mod_lt _ (by positivity)
  have h2 : neg.toNat <<< (f.W - 9) ||| s % 2 ^ (f.M - 1) = neg.toNat * 2 ^ (f.W - 9) + s % 2 ^ (f.M - 1) := by
    rw [← Nat.shiftLeft_add_eq_or_of_lt (by cases f <;> simpa [Fmt.M, Fmt.W] using hs), Nat.shiftLeft_eq]
  have hn : neg.toNat ≤ 1 := Bool.toNat_le neg
  have h3 : neg.toNat * 2 ^ (f.W - 9) + s % 2 ^ (f.M - 1) < 2 ^ (f.W - 8) := by
    cases f <;> simp only [Fmt.M, Fmt.W] at * <;> omega
  have h4 : e * 2 ^ (f.W - 8) + (neg.toNat * 2 ^ (f.W - 9) + s % 2 ^ (f.M - 1)) < 2 ^ 64 :=
    calc e * 2 ^ (f.W - 8) + (neg.toNat * 2 ^ (f.W - 9) + s % 2 ^ (f.M - 1))
        < (e + 1) * 2 ^ (f.W - 8) := by rw [Nat.succ_mul]; exact Nat.add_lt_add_left h3 _
      _ ≤ 256 * 2 ^ (f.W - 8) := Nat.mul_le_mul_right _ he
      _ ≤ 2 ^ 64 := by cases f <;> decide
  rw [pack, BitVec.toNat_ofNat, Nat.or_assoc, h2, ← Nat.shiftLeft_add_eq_or_of_lt h3, Nat.shiftLeft_eq,
    Nat.add_assoc]
  exact Nat.mod_eq_of_lt h4

theorem expb_pack (f : Fmt) (e s : Nat) (neg : Bool) (he : e < 256) : expb f (pack f e s neg) = e := by
  have hs : s % 2 ^ (f.M - 1) < 2 ^ (f.M - 1) := Nat.mod_lt _ (by positivity)
  have hn : neg.toNat ≤ 1 := Bool.toNat_le neg
  rw [expb, pack_toNat f e s neg he]
  cases f <;> simp only [Fmt.M, Fmt.W] at * <;> omega

theorem frac_pack (f : Fmt) (e s : Nat) (neg : Bool) (he : e < 256) :
    frac f (pack f e s neg) = s % 2 ^ (f.M - 1) := by
  have hs : s % 2 ^ (f.M - 1) < 2 ^ (f.M - 1) := Nat.mod_lt _ (by positivity)
  rw [frac, pack_toNat f e s neg he]
  cases f <;> simp only [Fmt.M, Fmt.W] at * <;> omega

theorem sgn_pack (f : Fmt) (e s : Nat) (neg : Bool) (he : e < 256) : sgn f (pack f e s neg) = neg := by
  have hs : s % 2 ^ (f.M - 1) < 2 ^ (f.M - 1) := Nat.mod_lt _ (by positivity)
  have hn : neg.toNat ≤ 1 := Bool.toNat_le neg
  have h : (e * 2 ^ (f.W - 8) + neg.toNat * 2 ^ (f.W - 9) + s % 2 ^ (f.M - 1)) / 2 ^ (f.W - 9) % 2 = neg.toNat := by
    cases f <;> simp only [Fmt.M, Fmt.W] at * <;> omega
  rw [sgn_eq, pack_toNat f e s neg he, h]
  cases neg <;> rfl

theorem sig_pack (f : Fmt) (e s : Nat) (neg : Bool) (he : e < 256) (h1 : 2 ^ (f.M - 1) ≤ s) (h2 : s < 2 ^ f.M) :
    sig f (pack f e s neg) = s := by
  rw [sig, frac_pack f e s neg he]
  cases f <;> simp only [Fmt.M] at * <;> omega

/-- The packed fields of a value that lies within its format give the value back (R30). -/
theorem pack_fields (f : Fmt) (x : Bus) (hx : x.toNat < 2 ^ f.W) :
    pack f (expb f x) (sig f x) (sgn f x) = x := by
  apply BitVec.eq_of_toNat_eq
  rw [pack_toNat f _ _ _ (expb_lt f x)]
  have h : (sgn f x).toNat = x.toNat / 2 ^ (f.W - 9) % 2 := by
    rw [sgn_eq]
    have := Nat.mod_two_eq_zero_or_one (x.toNat / 2 ^ (f.W - 9))
    rcases this with h | h <;> simp [h]
  rw [h]
  cases f <;> simp only [expb, sig, frac, Fmt.M, Fmt.W] at * <;> omega

/-- The largest exponent byte with every fraction bit 1 (R31). -/
theorem maxMag_eq_pack (f : Fmt) (neg : Bool) : maxMag f neg = pack f 255 (2 ^ f.M - 1) neg := by
  cases f <;> cases neg <;> decide

theorem isMaxMag_maxMag (f : Fmt) (neg : Bool) : IsMaxMag f.tag.code (maxMag f neg) := by
  cases f <;> cases neg <;> decide

theorem onBus_toNat {n : Nat} (h : n ≤ 64) (x : BitVec n) : (onBus x).toNat = x.toNat := by
  have := x.isLt
  have h2 : 2 ^ n ≤ 2 ^ 64 := Nat.pow_le_pow_right (by decide) h
  simp only [onBus, BitVec.toNat_setWidth]
  exact Nat.mod_eq_of_lt (by omega)

/-- Widening shifts a Single up by 4 bytes (R134). -/
theorem widen_toNat (x : SngBits) : (widen x).toNat = x.toNat * 2 ^ 32 := by
  have := x.isLt
  simp only [widen, BitVec.toNat_append, BitVec.extractLsb'_toNat, BitVec.toNat_ofNat]
  rw [← Nat.shiftLeft_add_eq_or_of_lt (by omega), ← Nat.shiftLeft_add_eq_or_of_lt (by omega)]
  simp only [Nat.shiftLeft_eq, Nat.shiftRight_eq_div_pow]
  omega

theorem expb_widen (x : SngBits) : expb .dbl (widen x) = expb .sng (onBus x) := by
  have := x.isLt
  simp only [expb, widen_toNat, onBus_toNat (n := 32) (by decide), Fmt.W]
  omega

theorem sgn_widen (x : SngBits) : sgn .dbl (widen x) = sgn .sng (onBus x) := by
  have := x.isLt
  simp only [sgn_eq, widen_toNat, onBus_toNat (n := 32) (by decide), Fmt.W]
  congr 2
  omega

theorem frac_widen (x : SngBits) : frac .dbl (widen x) = frac .sng (onBus x) * 2 ^ 32 := by
  have := x.isLt
  simp only [frac, widen_toNat, onBus_toNat (n := 32) (by decide), Fmt.M]
  omega

end Sys2Proof.Machine
end

