-- ==== Sys2Proof/Laws/Renormalizer.lean ====
section
/-! SUPPORT. What renorm can do: the loop of step 1, the rounded significand, and the three exits of R81. -/

namespace Sys2Proof.Machine

theorem two_pow_W (f : Fmt) : 2 ^ f.W = 2 ^ (f.W - 1) + 2 ^ (f.W - 1) := by cases f <;> rfl

theorem two_pow_M (f : Fmt) : 2 ^ f.M = 2 ^ (f.M - 1) + 2 ^ (f.M - 1) := by cases f <;> rfl

theorem two_pow_W_eq_M (f : Fmt) : 2 ^ (f.W - 1) = 2 ^ (f.M - 1) * 256 := by cases f <;> rfl

/-- The loop with enough iterations shifts by some `z` that leaves the mantissa normalized (R82). -/
theorem normalizeLoop_spec (f : Fmt) (k : Nat) (t : Triple) (hlt : t.man < 2 ^ f.W)
    (hk : 2 ^ (f.W - 1) ≤ t.man * 2 ^ k) :
    ∃ z ≤ k, normalizeLoop f k t = { t with exp := t.exp - z, man := t.man * 2 ^ z } ∧
      Normalized f (t.man * 2 ^ z) := by
  induction k generalizing t with
  | zero => exact ⟨0, le_rfl, by simp [normalizeLoop], by simpa [Normalized, hlt] using hk⟩
  | succ k ih =>
    by_cases h : t.man < 2 ^ (f.W - 1)
    · obtain ⟨z, hz, heq, hn⟩ := ih { t with man := t.man <<< 1, exp := t.exp - 1 }
        (by have := two_pow_W f; simp only [Nat.shiftLeft_eq]; omega)
        (by simpa [Nat.shiftLeft_eq, pow_succ, mul_assoc, mul_comm, mul_left_comm] using hk)
      refine ⟨z + 1, by omega, ?_, ?_⟩
      · rw [normalizeLoop, if_pos h, heq]
        simp only [Nat.shiftLeft_eq, Triple.mk.injEq, and_true]
        exact ⟨by push_cast; ring, by ring⟩
      · have e : t.man * 2 ^ (z + 1) = t.man <<< 1 * 2 ^ z := by rw [Nat.shiftLeft_eq]; ring
        rw [e]
        exact hn
    · exact ⟨0, by omega, by simp [normalizeLoop, h], by simpa [Normalized] using ⟨not_lt.1 h, hlt⟩⟩

/-- Step 1 on a nonzero mantissa. -/
theorem normalize_spec (f : Fmt) (t : Triple) (h0 : t.man ≠ 0) (hlt : t.man < 2 ^ f.W) :
    ∃ z, normalize f t = { t with exp := t.exp - (z : Nat), man := t.man * 2 ^ z } ∧
      Normalized f (t.man * 2 ^ z) := by
  obtain ⟨z, -, h⟩ := normalizeLoop_spec f f.W t hlt (by
    have h1 : 1 * 2 ^ f.W ≤ t.man * 2 ^ f.W := Nat.mul_le_mul_right _ (Nat.pos_of_ne_zero h0)
    have := two_pow_W f
    omega)
  exact ⟨z, h⟩

/-- The shift that normalizes is the number of leading zeros (R82). -/
theorem shift_eq_leadingZeros (f : Fmt) (m z : Nat) (h : Normalized f (m * 2 ^ z)) : z = f.W - 1 - m.log2 := by
  have hm : m ≠ 0 := by
    rintro rfl
    have h1 := h.1
    simp only [Nat.zero_mul, Nat.le_zero_eq] at h1
    exact absurd h1 (by positivity)
  have h1 : 2 ^ m.log2 ≤ m := Nat.log2_self_le hm
  have h2 : m < 2 ^ (m.log2 + 1) := (Nat.log2_lt hm).1 (Nat.lt_succ_self _)
  have h3 : 2 ^ (m.log2 + z) < 2 ^ f.W := by
    rw [pow_add]
    exact lt_of_le_of_lt (Nat.mul_le_mul_right _ h1) h.2
  have h4 : 2 ^ (f.W - 1) < 2 ^ (m.log2 + 1 + z) := by
    rw [pow_add]
    exact lt_of_le_of_lt h.1 (Nat.mul_lt_mul_of_pos_right h2 (by positivity))
  have h5 := (Nat.pow_lt_pow_iff_right (by decide : 1 < 2)).1 h3
  have h6 := (Nat.pow_lt_pow_iff_right (by decide : 1 < 2)).1 h4
  omega

/-- A mantissa that is normalized already is not shifted. -/
theorem normalize_of_normalized (f : Fmt) (t : Triple) (h : Normalized f t.man) : normalize f t = t := by
  obtain ⟨k, hk⟩ : ∃ k, f.W = k + 1 := by cases f <;> exact ⟨_, rfl⟩
  rw [normalize, hk, normalizeLoop, if_neg (not_lt.2 h.1)]

theorem roundsUp_eq (m : Nat) :
    roundsUp m = decide (m % 256 > 128 ∨ (m % 256 = 128 ∧ m / 256 % 2 = 1)) := by
  simp [roundsUp, Nat.shiftRight_eq_div_pow]

/-- Steps 2 and 3: the rounded significand is normalized; a rounding carry leaves the smallest significand one
exponent higher. -/
theorem roundSig_cases (f : Fmt) (t : Triple) (h : Normalized f t.man) :
    (t.man / 256 + (roundsUp t.man).toNat < 2 ^ f.M ∧
      roundSig f t = { t with man := t.man / 256 + (roundsUp t.man).toNat }) ∨
    (t.man / 256 + (roundsUp t.man).toNat = 2 ^ f.M ∧
      roundSig f t = { t with exp := t.exp + 1, man := 2 ^ (f.M - 1) }) := by
  have hb : (roundsUp t.man).toNat ≤ 1 := Bool.toNat_le _
  have hlt : t.man / 256 < 2 ^ f.M := by
    have := h.2
    have h2 : 2 ^ f.W = 2 ^ f.M * 256 := by cases f <;> rfl
    omega
  by_cases hc : t.man / 256 + (roundsUp t.man).toNat < 2 ^ f.M
  · left
    refine ⟨hc, ?_⟩
    simp [roundSig, Nat.shiftRight_eq_div_pow, not_le.2 hc]
  · right
    have he : t.man / 256 + (roundsUp t.man).toNat = 2 ^ f.M := by omega
    refine ⟨he, ?_⟩
    have : 2 ^ f.M / 2 = 2 ^ (f.M - 1) := by cases f <;> rfl
    simp [roundSig, Nat.shiftRight_eq_div_pow, he, this]

theorem roundSig_bounds (f : Fmt) (t : Triple) (h : Normalized f t.man) :
    2 ^ (f.M - 1) ≤ (roundSig f t).man ∧ (roundSig f t).man < 2 ^ f.M ∧ (roundSig f t).neg = t.neg := by
  have h1 := h.1
  have hw := two_pow_W_eq_M f
  have hm := two_pow_M f
  have hp : 0 < 2 ^ (f.M - 1) := by positivity
  rcases roundSig_cases f t h with ⟨hc, he⟩ | ⟨hc, he⟩ <;> rw [he]
  · exact ⟨le_trans (by omega) (Nat.le_add_right _ _), hc, rfl⟩
  · exact ⟨le_rfl, by show 2 ^ (f.M - 1) < 2 ^ f.M; omega, rfl⟩

/-- The exits of the range check. -/
theorem rangeCheck_cases (f : Fmt) (t : Triple) :
    (255 < t.exp ∧ rangeCheck f t = signalOverflow f.tag (maxMag f t.neg)) ∨
    (t.exp ≤ 0 ∧ rangeCheck f t = result f.tag (zero f)) ∨
    (1 ≤ t.exp ∧ t.exp ≤ 255 ∧ rangeCheck f t = result f.tag (pack f t.exp.toNat t.man t.neg)) := by
  unfold rangeCheck
  split
  · exact .inl ⟨by omega, rfl⟩
  · split
    · exact .inr (.inl ⟨by omega, rfl⟩)
    · exact .inr (.inr ⟨by omega, by omega, rfl⟩)

/-- Everything `renorm` can answer on a mantissa within the working width: the canonical zero, the Overflow
substitute with the triple's sign, or a packed value with exponent byte 1 to 255 and a normalized significand. -/
theorem renorm_cases (f : Fmt) (t : Triple) (hlt : t.man < 2 ^ f.W) :
    renorm f t = result f.tag (zero f) ∨
    renorm f t = signalOverflow f.tag (maxMag f t.neg) ∨
    ∃ e s, 1 ≤ e ∧ e < 256 ∧ 2 ^ (f.M - 1) ≤ s ∧ s < 2 ^ f.M ∧
      renorm f t = result f.tag (pack f e s t.neg) := by
  by_cases h0 : t.man = 0
  · exact .inl (by simp [renorm, h0])
  · obtain ⟨z, hz, hn⟩ := normalize_spec f t h0 hlt
    have hn' : Normalized f (normalize f t).man := by rw [hz]; exact hn
    obtain ⟨hb1, hb2, hneg⟩ := roundSig_bounds f _ hn'
    have hneg' : (roundSig f (normalize f t)).neg = t.neg := by rw [hneg, hz]
    rw [renorm, if_neg h0]
    rcases rangeCheck_cases f (roundSig f (normalize f t)) with ⟨-, h⟩ | ⟨-, h⟩ | ⟨h1, h2, h⟩
    · exact .inr (.inl (by rw [h, hneg']))
    · exact .inl h
    · exact .inr (.inr ⟨(roundSig f (normalize f t)).exp.toNat, _, by omega, by omega, hb1, hb2, by rw [h, hneg']⟩)

@[simp] theorem renorm_valid (f : Fmt) (t : Triple) : (renorm f t).valid = true := by
  unfold renorm rangeCheck
  split_ifs <;> rfl

@[simp] theorem renorm_tag (f : Fmt) (t : Triple) : (renorm f t).tag = f.tag.code := by
  unfold renorm rangeCheck
  split_ifs <;> rfl

@[simp] theorem renorm_ill (f : Fmt) (t : Triple) : (renorm f t).ill = false := by
  unfold renorm rangeCheck
  split_ifs <;> rfl

@[simp] theorem renorm_dbz (f : Fmt) (t : Triple) : (renorm f t).dbz = false := by
  unfold renorm rangeCheck
  split_ifs <;> rfl

@[simp] theorem renorm_t (f : Fmt) (t : Triple) : (renorm f t).t = false := by
  unfold renorm rangeCheck
  split_ifs <;> rfl

end Sys2Proof.Machine
end

