-- ==== Sys2Proof/Laws/Adder.lean ====
section
/-! SUPPORT. What alignment and the addition of magnitudes leave: bounds of the mantissa, the shift in one form, the cases without lost bits. -/

namespace Sys2Proof.Machine

/-- The two branches of R93's alignment as one: the shift by `d` already gives 0 when `d` reaches the width. -/
theorem alignTo_eq (f : Fmt) (hi lo : Triple) (h : Normalized f lo.man) :
    alignTo f hi lo =
      { e := hi.exp, mh := hi.man, sh := hi.neg, ml := lo.man / 2 ^ (hi.exp - lo.exp).toNat, sl := lo.neg,
        lost := decide (lo.man % 2 ^ (hi.exp - lo.exp).toNat ≠ 0) } := by
  unfold alignTo
  generalize (hi.exp - lo.exp).toNat = d
  by_cases hd : f.W ≤ d
  · have hlt : lo.man < 2 ^ d := lt_of_lt_of_le h.2 (Nat.pow_le_pow_right (by decide) hd)
    have hp : 0 < lo.man := lt_of_lt_of_le (by positivity) h.1
    simp [hd, Nat.div_eq_of_lt hlt, Nat.mod_eq_of_lt hlt]
    omega
  · simp [hd, Nat.shiftRight_eq_div_pow]

/-- Aligned magnitudes fit the working width, and the operand of the larger exponent stays normalized. -/
theorem align_bounds (f : Fmt) (x y : Triple) (hx : Normalized f x.man) (hy : Normalized f y.man) :
    Normalized f (align f x y).mh ∧ (align f x y).ml < 2 ^ f.W := by
  unfold align
  split
  · rw [alignTo_eq f x y hy]
    exact ⟨hx, lt_of_le_of_lt (Nat.div_le_self _ _) hy.2⟩
  · rw [alignTo_eq f y x hx]
    exact ⟨hy, lt_of_le_of_lt (Nat.div_le_self _ _) hx.2⟩

theorem addMagnitudes_lt (f : Fmt) (al : Aligned) (h1 : al.mh < 2 ^ f.W) (h2 : al.ml < 2 ^ f.W) :
    (addMagnitudes f al).man < 2 ^ f.W := by
  simp only [addMagnitudes, Nat.shiftRight_one]
  split
  · show (al.mh + al.ml) / 2 < 2 ^ f.W
    omega
  · show al.mh + al.ml < 2 ^ f.W
    omega

theorem subDifference_lt (f : Fmt) (al : Aligned) (h1 : al.mh < 2 ^ f.W) (h2 : al.ml < 2 ^ f.W) :
    (subDifference al).man < 2 ^ f.W := by
  unfold subDifference
  split
  · show al.ml - al.mh < 2 ^ f.W
    omega
  · show al.mh - al.ml < 2 ^ f.W
    omega

theorem subMagnitudes_lt (p : Params) (f : Fmt) (al : Aligned) (h1 : al.mh < 2 ^ f.W) (h2 : al.ml < 2 ^ f.W) :
    (subMagnitudes p f al).man < 2 ^ f.W := by
  unfold subMagnitudes
  have h := subDifference_lt f al h1 h2
  split
  · exact p.subq_lt f _ h
  · exact h

/-- The sum before rounding fits the working width, under every choice of the parameters. -/
theorem addTriple_lt (p : Params) (f : Fmt) (x y : Triple) (hx : Normalized f x.man) (hy : Normalized f y.man) :
    (addTriple p f x y).man < 2 ^ f.W := by
  obtain ⟨h1, h2⟩ := align_bounds f x y hx hy
  simp only [addTriple]
  split
  · exact addMagnitudes_lt f _ h1.2 h2
  · exact subMagnitudes_lt p f _ h1.2 h2

/-- A shift by at most 8 places loses nothing of a mantissa whose guard byte is 0 (R93). -/
theorem den_mod_two_pow (f : Fmt) (x : Bus) (d : Nat) (hd : d ≤ 8) : (den f x).man % 2 ^ d = 0 := by
  have h : (256 : Nat) = 2 ^ (8 - d) * 2 ^ d := by rw [← pow_add, Nat.sub_add_cancel hd]; rfl
  rw [den_man, h, ← mul_assoc]
  exact Nat.mul_mod_left _ _

theorem align_lost_close (f : Fmt) (a b : Bus) (h1 : expb f a ≤ expb f b + 8) (h2 : expb f b ≤ expb f a + 8) :
    (align f (den f a) (den f b)).lost = false := by
  unfold align
  split
  · rw [alignTo_eq f _ _ (den_normalized f b)]
    simp [den_mod_two_pow f b (expb f a - expb f b) (by omega)]
  · rw [alignTo_eq f _ _ (den_normalized f a)]
    simp [den_mod_two_pow f a (expb f b - expb f a) (by omega)]

/-- What FADD can answer: a zero, one of the operands, or what renorm answers. -/
theorem fadd_cases (p : Params) (f : Fmt) (a b : Bus) :
    fadd p f a b = result f.tag (zero f) ∨
    (isZero f a = false ∧ fadd p f a b = result f.tag a) ∨
    (isZero f b = false ∧ fadd p f a b = result f.tag b) ∨
    ∃ t : Triple, t.man < 2 ^ f.W ∧ fadd p f a b = renorm f t := by
  unfold fadd
  by_cases hb : isZero f b = true <;> by_cases ha : isZero f a = true
  · simp [ha, hb]
  · simp [ha, hb]
  · simp [ha, hb]
  · refine .inr (.inr (.inr ⟨_, addTriple_lt p f _ _ (den_normalized f a) (den_normalized f b), ?_⟩))
    simp [ha, hb]

end Sys2Proof.Machine
end

