-- ==== Sys2Proof/Laws/IntAlu.lean ====
section
/-! SUPPORT. What the integer encoding and the comparisons can answer. -/

namespace Sys2Proof.Machine

theorem u16_toNat_lt (z : Int) : (u16 z).toNat < 2 ^ 16 := by
  rw [u16, onBus_toNat (by decide)]
  exact (BitVec.ofInt 16 z).isLt

/-- The exits of `enc_int` (R61): one of the two substitutes, or the encoded integer. -/
theorem encInt_cases (z : Int) (unsigned : Bool) :
    ((if unsigned then 65535 else 32767) < z ∧ encInt z unsigned = signalOverflow .int 0x7FFF) ∨
    (z < -32768 ∧ encInt z unsigned = signalOverflow .int 0x8000) ∨
    (-32768 ≤ z ∧ z ≤ (if unsigned then 65535 else 32767) ∧ encInt z unsigned = result .int (u16 z)) := by
  unfold encInt
  generalize (if unsigned = true then 65535 else 32767 : Int) = hi
  by_cases h1 : z > hi
  · exact .inl ⟨h1, if_pos h1⟩
  · by_cases h2 : z < -32768
    · exact .inr (.inl ⟨h2, by rw [if_neg h1, if_pos h2]⟩)
    · exact .inr (.inr ⟨by omega, by omega, by rw [if_neg h1, if_neg h2]⟩)

/-- In range, the encoding of a sum, a difference or a negation is the wrapped bit-vector result. -/
theorem u16_add (a b : IntBits) : u16 (a.toInt + b.toInt) = (a + b).setWidth 64 := by
  rw [u16, onBus, BitVec.ofInt_add, BitVec.ofInt_toInt, BitVec.ofInt_toInt]

theorem u16_neg (a : IntBits) : u16 (-a.toInt) = (-a).setWidth 64 := by
  rw [u16, onBus, BitVec.ofInt_neg, BitVec.ofInt_toInt]

theorem u16_sub (a b : IntBits) : u16 (a.toInt - b.toInt) = (a - b).setWidth 64 := by
  rw [sub_eq_add_neg, u16, onBus, BitVec.ofInt_add, BitVec.ofInt_neg, BitVec.ofInt_toInt, BitVec.ofInt_toInt,
    BitVec.sub_eq_add_neg]

theorem int_bounds (a : IntBits) : -32768 ≤ a.toInt ∧ a.toInt ≤ 32767 := by
  have h1 := BitVec.le_toInt a
  have h2 := BitVec.toInt_lt (x := a)
  norm_num at h1 h2
  omega

/-- A Single of maximum magnitude answers a zero divisor, with the dividend's sign (R65, R66). -/
theorem intDivideByZero_eq (a : IntBits) :
    intDivideByZero a = signalDivisionByZero .sng (if a.toInt < 0 then 0xFFFFFFFF else 0xFF7FFFFF) := by
  rw [intDivideByZero, BitVec.msb_eq_toInt]
  by_cases h : a.toInt < 0 <;> simp [h, maxMag]

theorem toInt_eq_zero_iff (b : IntBits) : b.toInt = 0 ↔ b = 0 := by
  constructor
  · intro h
    exact BitVec.eq_of_toInt_eq (by simpa using h)
  · rintro rfl
    rfl

end Sys2Proof.Machine
end

