-- ==== Sys2Proof/Laws/Converters.lean ====
section
/-! SUPPORT. The conversions: the fields of a converted Integer, the triple of a narrowed Double, what the commands can answer. -/

namespace Sys2Proof.Machine

theorem log2_le_of_lt {m k : Nat} (hm : m ≠ 0) (h : m < 2 ^ (k + 1)) : m.log2 ≤ k :=
  Nat.lt_succ_iff.1 ((Nat.log2_lt hm).2 h)

/-- The shift of R130 brings the magnitude's top bit to bit `M(f)-1`. -/
theorem shifted_magnitude (f : Fmt) (m : Nat) (hm : m ≠ 0) (hlt : m < 2 ^ f.M) :
    2 ^ (f.M - 1) ≤ m <<< (f.M - 1 - m.log2) ∧ m <<< (f.M - 1 - m.log2) < 2 ^ f.M := by
  obtain ⟨k, hk⟩ : ∃ k, f.M = k + 1 := by cases f <;> exact ⟨_, rfl⟩
  rw [hk] at hlt ⊢
  have hl := log2_le_of_lt hm hlt
  have h1 : 2 ^ m.log2 ≤ m := Nat.log2_self_le hm
  have h2 : m < 2 ^ (m.log2 + 1) := (Nat.log2_lt hm).1 (Nat.lt_succ_self _)
  rw [Nat.shiftLeft_eq, Nat.add_sub_cancel]
  constructor
  · calc 2 ^ k = 2 ^ m.log2 * 2 ^ (k - m.log2) := by rw [← pow_add, Nat.add_sub_cancel' hl]
      _ ≤ m * 2 ^ (k - m.log2) := Nat.mul_le_mul_right _ h1
  · calc m * 2 ^ (k - m.log2) < 2 ^ (m.log2 + 1) * 2 ^ (k - m.log2) :=
          Nat.mul_lt_mul_of_pos_right h2 (by positivity)
      _ = 2 ^ (k + 1) := by rw [← pow_add]; congr 1; omega

theorem natAbs_bounds (n : IntBits) (h : n.toInt ≠ 0) :
    n.toInt.natAbs ≠ 0 ∧ n.toInt.natAbs ≤ 2 ^ 15 ∧ n.toInt.natAbs.log2 ≤ 15 := by
  have hb := int_bounds n
  have h1 : n.toInt.natAbs ≠ 0 := by omega
  have h2 : n.toInt.natAbs ≤ 2 ^ 15 := by omega
  exact ⟨h1, h2, log2_le_of_lt h1 (by omega)⟩

/-- A converted nonzero Integer in the form of R30, with the exponent byte of R130. -/
theorem i2f_eq (f : Fmt) (n : IntBits) (h : n.toInt ≠ 0) :
    i2f f n = pack f (129 + n.toInt.natAbs.log2) (n.toInt.natAbs <<< (f.M - 1 - n.toInt.natAbs.log2))
      (decide (n.toInt < 0)) := by
  have hl := (natAbs_bounds n h).2.2
  have hz : f.bias - (f.M - 1 - n.toInt.natAbs.log2) = 129 + n.toInt.natAbs.log2 := by
    cases f <;> simp only [Fmt.bias, Fmt.M] <;> omega
  simp only [i2f, if_neg h, hz]

set_option maxRecDepth 4000 in
/-- Setting the implicit bit in a byte (R135). -/
theorem byte_or_0x80 : ∀ n < 256, n ||| 0x80 = 128 + n % 128 := by decide

/-- Narrowing keeps a normalized mantissa: the implicit bit over bytes 6 to 3 (R135). -/
theorem narrowTriple_man (x : DblBits) :
    (narrowTriple x).man = (2 ^ 23 + x.toNat / 2 ^ 32 % 2 ^ 23) * 256 + x.toNat / 2 ^ 24 % 256 := by
  have h6 : byteOf x 6 ||| 0x80 = 128 + x.toNat / 2 ^ 48 % 128 := by
    have e : byteOf x 6 = x.toNat / 2 ^ 48 % 256 := rfl
    rw [e]
    rw [byte_or_0x80 _ (Nat.mod_lt _ (by decide))]
    omega
  have h5 : byteOf x 5 = x.toNat / 2 ^ 40 % 256 := rfl
  have h4 : byteOf x 4 = x.toNat / 2 ^ 32 % 256 := rfl
  have h3 : byteOf x 3 = x.toNat / 2 ^ 24 % 256 := rfl
  have e1 : ∀ a b : Nat, b < 256 → a <<< 8 ||| b = a * 256 + b := fun a b hb => by
    rw [← Nat.shiftLeft_add_eq_or_of_lt hb, Nat.shiftLeft_eq]
  have e : (narrowTriple x).man =
      (((byteOf x 6 ||| 0x80) <<< 8 ||| byteOf x 5) <<< 8 ||| byteOf x 4) <<< 8 ||| byteOf x 3 := by
    simp only [narrowTriple, Nat.shiftLeft_or_distrib, ← Nat.shiftLeft_add]
  rw [e, e1 _ _ (by omega), e1 _ _ (by omega), e1 _ _ (by omega), h6, h5, h4, h3]
  omega

theorem narrowTriple_normalized (x : DblBits) : Normalized .sng (narrowTriple x).man := by
  rw [narrowTriple_man]
  simp only [Normalized, Fmt.W]
  omega

theorem narrowTriple_exp (x : DblBits) : (narrowTriple x).exp = (x.toNat / 2 ^ 56 : Nat) := by
  have := x.isLt
  have : x.toNat / 2 ^ 56 < 256 := by
    rw [Nat.div_lt_iff_lt_mul (by positivity)]
    exact this
  simp only [narrowTriple, byteOf]
  norm_num
  omega

theorem narrowTriple_neg (x : DblBits) : (narrowTriple x).neg = x.getLsbD 55 := by
  simp only [narrowTriple, byteOf, BitVec.getLsbD, Nat.testBit_eq_decide_div_mod_eq, Nat.shiftRight_eq_div_pow]
  congr 1
  apply propext
  norm_num
  omega

/-- What D2S can answer: the canonical zero, or what renorm answers. -/
theorem doubleToSingle_cases (x : DblBits) :
    doubleToSingle x = result .sng (zero .sng) ∨
    (doubleToSingle x = renorm .sng (narrowTriple x) ∧ (narrowTriple x).man < 2 ^ Fmt.sng.W) := by
  unfold doubleToSingle
  split
  · exact .inl rfl
  · exact .inr ⟨rfl, (narrowTriple_normalized x).2⟩

/-- `fround` of a nonzero value: the rounded magnitude with the value's sign (R132). -/
theorem fround_eq (f : Fmt) (x : Bus) (h : isZero f x = false) :
    fround f x = (if sgn f x then -1 else 1) * (roundMagnitude (sig f x) ((expb f x : Int) - f.bias) : Int) := by
  simp only [fround, h, Bool.false_eq_true, if_false]
  split <;> simp

end Sys2Proof.Machine
end

