-- ==== Sys2Proof/Laws/Divider.lean ====
section
/-! SUPPORT. What FDIV can answer, and the invariant of the restoring division. -/

namespace Sys2Proof.Machine

/-- The exponent offset of R113 is 129 in both formats. -/
theorem divTriple_exp (p : Params) (f : Fmt) (x y : Triple) : (divTriple p f x y).exp = x.exp - y.exp + 129 := by
  cases f <;> simp only [divTriple, Fmt.bias, Fmt.W] <;> omega

/-- What FDIV can answer: the substitute of a zero divisor, the canonical zero, or what renorm answers. -/
theorem fdiv_cases (p : Params) (f : Fmt) (a b : Bus) :
    (isZero f b = true ∧ fdiv p f a b = signalDivisionByZero f.tag (maxMag f (sgn f a))) ∨
    (isZero f b = false ∧ fdiv p f a b = result f.tag (zero f)) ∨
    (isZero f b = false ∧ ∃ t : Triple, t.man < 2 ^ f.W ∧ fdiv p f a b = renorm f t) := by
  unfold fdiv
  by_cases hb : isZero f b = true
  · exact .inl ⟨hb, by rw [if_pos hb]⟩
  · have hb' : isZero f b = false := by simpa using hb
    by_cases ha : isZero f a = true
    · exact .inr (.inl ⟨hb', by rw [if_neg hb, if_pos ha]⟩)
    · exact .inr (.inr ⟨hb', _, p.divq_lt f _ _ (den_normalized f a) (den_normalized f b),
        by rw [if_neg hb, if_neg ha]⟩)

/-- With `k` digits to go, the loop ends with `q * 2^k` plus the quotient of the remainder it still holds. -/
theorem restoringLoop_eq (mb k rem q : Nat) (hb : 0 < mb) (hr : rem < 2 * mb) :
    restoringLoop mb k rem q = q * 2 ^ k + rem * 2 ^ k / (2 * mb) := by
  induction k generalizing rem q with
  | zero => simp [restoringLoop, Nat.div_eq_of_lt hr]
  | succ k ih =>
    have hbit : q <<< 1 ||| 1 = q * 2 + 1 := by
      rw [← Nat.shiftLeft_add_eq_or_of_lt (by decide), Nat.shiftLeft_eq]
    rw [restoringLoop]
    split
    · next h =>
      rw [hbit, ih _ _ (by rw [Nat.shiftLeft_eq]; omega), Nat.shiftLeft_eq]
      obtain ⟨r, rfl⟩ := Nat.exists_eq_add_of_le h
      have e : (mb + r) * 2 ^ (k + 1) = r * 2 * 2 ^ k + 2 * mb * 2 ^ k := by rw [pow_succ]; ring
      rw [Nat.add_sub_cancel_left, e, Nat.add_mul_div_left _ _ (by omega)]
      rw [pow_one, pow_succ]
      generalize r * 2 * 2 ^ k / (2 * mb) = d
      ring
    · next h =>
      rw [ih _ _ (by rw [Nat.shiftLeft_eq]; omega), Nat.shiftLeft_eq, Nat.shiftLeft_eq]
      have e : rem * 2 ^ (k + 1) = rem * 2 ^ 1 * 2 ^ k := by rw [pow_succ]; ring
      rw [e, pow_succ 2 k]
      generalize rem * 2 ^ 1 * 2 ^ k / (2 * mb) = d
      ring

end Sys2Proof.Machine
end

