-- ==== Sys2Proof/Laws/Multiplier.lean ====
section
/-! SUPPORT. The range shift of the multiplier: how many places it shifts and what it leaves. -/

namespace Sys2Proof.Machine

/-- The loop with enough iterations shifts by some `j`; the product is below `2^W` after it, and it does not shift
further than it must (R102). -/
theorem rangeShiftLoop_spec (f : Fmt) (k : Nat) (t : Triple) (h : t.man < 2 ^ (f.W + k)) :
    ∃ j ≤ k, rangeShiftLoop f k t = { t with exp := t.exp + j, man := t.man / 2 ^ j } ∧
      t.man / 2 ^ j < 2 ^ f.W ∧ (j = 0 ∨ 2 ^ f.W ≤ t.man / 2 ^ (j - 1)) := by
  induction k generalizing t with
  | zero => exact ⟨0, le_rfl, by simp [rangeShiftLoop], by simpa using h, .inl rfl⟩
  | succ k ih =>
    by_cases hc : 2 ^ f.W ≤ t.man
    · obtain ⟨j, hj, heq, hlt, hmin⟩ := ih { t with man := t.man >>> 1, exp := t.exp + 1 } (by
        simp only [Nat.shiftRight_one]
        have e : 2 ^ (f.W + (k + 1)) = 2 ^ (f.W + k) * 2 := by rw [← add_assoc, pow_succ]
        omega)
      have e : ∀ n, t.man / 2 ^ (n + 1) = t.man >>> 1 / 2 ^ n := fun n => by
        rw [Nat.shiftRight_one, Nat.div_div_eq_div_mul, pow_succ, mul_comm]
      refine ⟨j + 1, by omega, ?_, ?_, ?_⟩
      · rw [rangeShiftLoop, if_pos hc, heq]
        simp only [Triple.mk.injEq, and_true]
        exact ⟨by push_cast; ring, (e j).symm⟩
      · rw [e]
        exact hlt
      · rcases hmin with rfl | hmin
        · exact .inr (by simpa using hc)
        · rcases j with _ | j
          · exact .inr (by simpa using hc)
          · exact .inr (by rw [Nat.add_sub_cancel, e]; simpa using hmin)
    · exact ⟨0, by omega, by simp [rangeShiftLoop, hc], by simpa using hc, .inl rfl⟩

/-- The product of two mantissas: `W` places when it reaches `2^(2W-1)` and `W - 1` otherwise, and then it is
normalized. -/
theorem mulTriple_eq (f : Fmt) (x y : Triple) (hx : Normalized f x.man) (hy : Normalized f y.man) :
    ∃ k : Nat, k = (if x.man * y.man ≥ 2 ^ (2 * f.W - 1) then f.W else f.W - 1) ∧
      Normalized f (x.man * y.man / 2 ^ k) ∧
      mulTriple f x y =
        { exp := x.exp + y.exp - f.bias - 8 + k, man := x.man * y.man / 2 ^ k, neg := x.neg ^^ y.neg } := by
  have hlo : 2 ^ (f.W - 1) * 2 ^ (f.W - 1) ≤ x.man * y.man := Nat.mul_le_mul hx.1 hy.1
  have hhi : x.man * y.man < 2 ^ f.W * 2 ^ f.W := Nat.mul_lt_mul'' hx.2 hy.2
  rw [← pow_add] at hlo hhi
  obtain ⟨j, hj, heq, hlt, hmin⟩ := rangeShiftLoop_spec f f.W
    { exp := x.exp + y.exp - f.bias - 8, man := x.man * y.man, neg := x.neg ^^ y.neg } hhi
  simp only at heq hlt hmin
  have hW : 1 ≤ f.W := by cases f <;> decide
  have hj0 : j ≠ 0 := by
    rintro rfl
    have : 2 ^ f.W ≤ 2 ^ (f.W - 1 + (f.W - 1)) := Nat.pow_le_pow_right (by decide) (by cases f <;> decide)
    simp only [pow_zero, Nat.div_one] at hlt
    omega
  have hmin : 2 ^ f.W ≤ x.man * y.man / 2 ^ (j - 1) := hmin.resolve_left hj0
  have hmin' : 2 ^ (f.W + (j - 1)) ≤ x.man * y.man := by
    rw [pow_add]
    exact (Nat.le_div_iff_mul_le (by positivity)).1 hmin
  have hlt' : x.man * y.man < 2 ^ (f.W + j) := by
    rw [pow_add]
    exact (Nat.div_lt_iff_lt_mul (by positivity)).1 hlt
  have hk : j = if x.man * y.man ≥ 2 ^ (2 * f.W - 1) then f.W else f.W - 1 := by
    split
    · next hc =>
      have := (Nat.pow_lt_pow_iff_right (by decide : 1 < 2)).1 (lt_of_le_of_lt hc hlt')
      omega
    · next hc =>
      have h1 := (Nat.pow_lt_pow_iff_right (by decide : 1 < 2)).1 (lt_of_le_of_lt hmin' (not_le.1 hc))
      have h2 := (Nat.pow_lt_pow_iff_right (by decide : 1 < 2)).1 (lt_of_le_of_lt hlo hlt')
      omega
  refine ⟨j, hk, ⟨?_, hlt⟩, heq⟩
  rw [Nat.le_div_iff_mul_le (by positivity), ← pow_add]
  exact le_trans (Nat.pow_le_pow_right (by decide) (by omega)) hmin'

/-- What FMUL can answer: the canonical zero, or what renorm answers. -/
theorem fmul_cases (p : Params) (f : Fmt) (a b : Bus) :
    fmul p f a b = result f.tag (zero f) ∨ ∃ t : Triple, t.man < 2 ^ f.W ∧ fmul p f a b = renorm f t := by
  unfold fmul
  split
  · exact .inl rfl
  · obtain ⟨k, -, hn, he⟩ := mulTriple_eq f (den f a) (den f b) (den_normalized f a) (den_normalized f b)
    exact .inr ⟨_, by rw [he]; exact p.mulq_lt f _ hn.2, rfl⟩

end Sys2Proof.Machine
end

