-- ==== Sys2Proof/Laws/Answers.lean ====
section
/-! SUPPORT. Every answer of a shared operation meets the invariant of the latch, is valid and is no refusal. -/

namespace Sys2Proof.Machine

theorem inv_result_int (v : Bus) (h : v.toNat < 2 ^ 16) : (result .int v).Inv := by
  simpa [Latch.Inv, Latch.OneCondition, Latch.TypedValue, Latch.CanonicalZero, Latch.SubstituteShown,
    Latch.BlankUntilValid, Tag.code, tagWidth] using h

theorem inv_overflow_int_pos : (signalOverflow .int 0x7FFF).Inv := by decide

theorem inv_overflow_int_neg : (signalOverflow .int 0x8000).Inv := by decide

theorem inv_refuse : refuse.Inv := by decide

theorem inv_compared (b : Bool) : (compared b).Inv := by cases b <;> decide

/-- A float within its format that is no shape of zero but the canonical one. -/
theorem inv_result_float (f : Fmt) (v : Bus) (h : v.toNat < 2 ^ f.W) (hz : expb f v = 0 → v = 0) :
    (result f.tag v).Inv := by
  cases f <;>
    simpa [Latch.Inv, Latch.OneCondition, Latch.TypedValue, Latch.CanonicalZero, Latch.SubstituteShown,
      Latch.BlankUntilValid, Tag.code, Fmt.tag, tagWidth] using ⟨h, hz⟩

theorem inv_zero (f : Fmt) : (result f.tag (zero f)).Inv := by cases f <;> decide

theorem inv_overflow_float (f : Fmt) (neg : Bool) : (signalOverflow f.tag (maxMag f neg)).Inv := by
  cases f <;> cases neg <;> decide

theorem inv_divisionByZero_float (f : Fmt) (neg : Bool) : (signalDivisionByZero f.tag (maxMag f neg)).Inv := by
  cases f <;> cases neg <;> decide

theorem pack_lt (f : Fmt) (e s : Nat) (neg : Bool) (he : e < 256) : (pack f e s neg).toNat < 2 ^ f.W := by
  have hs : s % 2 ^ (f.M - 1) < 2 ^ (f.M - 1) := Nat.mod_lt _ (by positivity)
  have hn : neg.toNat ≤ 1 := Bool.toNat_le neg
  cases f
  · rw [pack_toNat .sng e s neg he]
    simp only [Fmt.M, Fmt.W] at *
    omega
  · exact (pack .dbl e s neg).isLt

theorem inv_pack (f : Fmt) (e s : Nat) (neg : Bool) (h1 : 1 ≤ e) (h2 : e < 256) :
    (result f.tag (pack f e s neg)).Inv :=
  inv_result_float f _ (pack_lt f e s neg h2) (by rw [expb_pack f e s neg h2]; omega)

theorem inv_renorm (f : Fmt) (t : Triple) (h : t.man < 2 ^ f.W) : (renorm f t).Inv := by
  rcases renorm_cases f t h with he | he | ⟨e, s, h1, h2, -, -, he⟩ <;> rw [he]
  · exact inv_zero f
  · exact inv_overflow_float f _
  · exact inv_pack f e s _ h1 h2

theorem inv_encInt (z : Int) (u : Bool) : (encInt z u).Inv := by
  rcases encInt_cases z u with ⟨-, h⟩ | ⟨-, h⟩ | ⟨-, -, h⟩ <;> rw [h]
  · exact inv_overflow_int_pos
  · exact inv_overflow_int_neg
  · exact inv_result_int _ (u16_toNat_lt z)

theorem inv_intDivideByZero (a : IntBits) : (intDivideByZero a).Inv := inv_divisionByZero_float .sng _

/-- FADD and FSUB return a nonzero operand as it is, so it must lie within its format. -/
theorem inv_fadd (p : Params) (f : Fmt) (a b : Bus) (ha : a.toNat < 2 ^ f.W) (hb : b.toNat < 2 ^ f.W) :
    (fadd p f a b).Inv := by
  rcases fadd_cases p f a b with h | ⟨hz, h⟩ | ⟨hz, h⟩ | ⟨t, ht, h⟩ <;> rw [h]
  · exact inv_zero f
  · exact inv_result_float f a ha (fun h0 => absurd h0 ((isZero_eq_false f a).1 hz))
  · exact inv_result_float f b hb (fun h0 => absurd h0 ((isZero_eq_false f b).1 hz))
  · exact inv_renorm f t ht

theorem inv_fmul (p : Params) (f : Fmt) (a b : Bus) : (fmul p f a b).Inv := by
  rcases fmul_cases p f a b with h | ⟨t, ht, h⟩ <;> rw [h]
  · exact inv_zero f
  · exact inv_renorm f t ht

theorem inv_fdiv (p : Params) (f : Fmt) (a b : Bus) : (fdiv p f a b).Inv := by
  rcases fdiv_cases p f a b with ⟨-, h⟩ | ⟨-, h⟩ | ⟨-, t, ht, h⟩ <;> rw [h]
  · exact inv_divisionByZero_float f _
  · exact inv_zero f
  · exact inv_renorm f t ht

theorem inv_i2f (f : Fmt) (n : IntBits) : (intToFloat f n).Inv := by
  unfold intToFloat
  by_cases h : n.toInt = 0
  · have : i2f f n = zero f := by simp [i2f, h]
    rw [this]
    exact inv_zero f
  · have hl := (natAbs_bounds n h).2.2
    rw [i2f_eq f n h]
    exact inv_pack f _ _ _ (by omega) (by omega)

theorem inv_singleToDouble (x : SngBits) : (singleToDouble x).Inv := by
  unfold singleToDouble
  split
  · exact inv_zero .dbl
  · next h =>
    refine inv_result_float .dbl (widen x) (widen x).isLt (fun h0 => ?_)
    rw [expb_widen] at h0
    exact absurd ((isZero_iff _ _).2 h0) h

theorem inv_doubleToSingle (x : DblBits) : (doubleToSingle x).Inv := by
  rcases doubleToSingle_cases x with h | ⟨h, ht⟩ <;> rw [h]
  · exact inv_zero .sng
  · exact inv_renorm .sng _ ht

/-- A promoted operand lies within the working format (R45). -/
theorem conv_lt (x : Operand) (w : Fmt) (h : x.tag = .dbl → w = .dbl) : (conv w x).toNat < 2 ^ w.W := by
  cases w
  · cases x with
    | int n =>
      by_cases h0 : n.toInt = 0
      · simp [conv, i2f, h0, zero, Fmt.W]
      · have hl := (natAbs_bounds n h0).2.2
        simp only [conv, i2f_eq .sng n h0]
        exact pack_lt .sng _ _ _ (by omega)
    | sng x =>
      simp only [conv, onBus_toNat (n := 32) (by decide)]
      exact x.isLt
    | dbl x => exact absurd (h rfl) (by decide)
  · exact (conv .dbl x).isLt

theorem prom_lt (x y : Operand) :
    (prom x y).a.toNat < 2 ^ (prom x y).fmt.W ∧ (prom x y).b.toNat < 2 ^ (prom x y).fmt.W := by
  constructor
  · exact conv_lt x _ (fun h => by simp [workFmt, h])
  · exact conv_lt y _ (fun h => by simp [workFmt, h])

theorem fneg_lt (f : Fmt) (x : Bus) (h : x.toNat < 2 ^ f.W) : (fneg f x).toNat < 2 ^ f.W := by
  rw [fneg, BitVec.toNat_xor]
  exact Nat.xor_lt_two_pow h (by cases f <;> decide)

theorem inv_floatAdd (p : Params) (x y : Operand) : (floatAdd p x y).Inv :=
  inv_fadd p _ _ _ (prom_lt x y).1 (prom_lt x y).2

theorem inv_intDivide (a b : IntBits) : (intDivide a b).Inv := by
  unfold intDivide
  split
  · exact inv_intDivideByZero a
  · exact inv_encInt _ _

theorem inv_intRemainder (a b : IntBits) : (intRemainder a b).Inv := by
  unfold intRemainder
  split
  · exact inv_intDivideByZero a
  · exact inv_result_int _ (u16_toNat_lt _)

theorem inv_floatSub (p : Params) (x y : Operand) : (floatSub p x y).Inv :=
  inv_fadd p _ _ _ (prom_lt x y).1 (fneg_lt _ _ (prom_lt x y).2)

/-- What every legal command leaves of the two fields no condition of a legal command touches: the latch is valid and
the word was not refused. -/
abbrev Latch.Answer (l : Latch) : Prop := l.valid = true ∧ l.ill = false

theorem answer_result (tg : Tag) (v : Bus) : (result tg v).Answer := ⟨rfl, rfl⟩

theorem answer_overflow (tg : Tag) (v : Bus) : (signalOverflow tg v).Answer := ⟨rfl, rfl⟩

theorem answer_divisionByZero (tg : Tag) (v : Bus) : (signalDivisionByZero tg v).Answer := ⟨rfl, rfl⟩

theorem answer_compared (b : Bool) : (compared b).Answer := ⟨rfl, rfl⟩

theorem answer_renorm (f : Fmt) (t : Triple) : (renorm f t).Answer := ⟨renorm_valid f t, renorm_ill f t⟩

theorem answer_encInt (z : Int) (u : Bool) : (encInt z u).Answer := by
  rcases encInt_cases z u with ⟨-, h⟩ | ⟨-, h⟩ | ⟨-, -, h⟩ <;> rw [h]
  · exact answer_overflow _ _
  · exact answer_overflow _ _
  · exact answer_result _ _

theorem answer_intDivide (a b : IntBits) : (intDivide a b).Answer := by
  unfold intDivide
  split
  · exact answer_divisionByZero _ _
  · exact answer_encInt _ _

theorem answer_intRemainder (a b : IntBits) : (intRemainder a b).Answer := by
  unfold intRemainder
  split
  · exact answer_divisionByZero _ _
  · exact answer_result _ _

theorem answer_fadd (p : Params) (f : Fmt) (a b : Bus) : (fadd p f a b).Answer := by
  rcases fadd_cases p f a b with h | ⟨-, h⟩ | ⟨-, h⟩ | ⟨t, -, h⟩ <;> rw [h]
  · exact answer_result _ _
  · exact answer_result _ _
  · exact answer_result _ _
  · exact answer_renorm f t

theorem answer_fmul (p : Params) (f : Fmt) (a b : Bus) : (fmul p f a b).Answer := by
  rcases fmul_cases p f a b with h | ⟨t, -, h⟩ <;> rw [h]
  · exact answer_result _ _
  · exact answer_renorm f t

theorem answer_fdiv (p : Params) (f : Fmt) (a b : Bus) : (fdiv p f a b).Answer := by
  rcases fdiv_cases p f a b with ⟨-, h⟩ | ⟨-, h⟩ | ⟨-, t, -, h⟩ <;> rw [h]
  · exact answer_divisionByZero _ _
  · exact answer_result _ _
  · exact answer_renorm f t

theorem answer_singleToDouble (x : SngBits) : (singleToDouble x).Answer := by
  unfold singleToDouble
  split
  · exact answer_result _ _
  · exact answer_result _ _

theorem answer_doubleToSingle (x : DblBits) : (doubleToSingle x).Answer := by
  rcases doubleToSingle_cases x with h | ⟨h, -⟩ <;> rw [h]
  · exact answer_result _ _
  · exact answer_renorm _ _

end Sys2Proof.Machine
end

