-- ==== Sys2Proof/Laws/Decode.lean ====
section
/-! SUPPORT. A word decodes by its three fields, so that a proof about one word evaluates those fields and nothing else. -/

namespace Sys2Proof

/-- A word whose fields name an operation and two tags decodes to what R44 gives that combination. -/
theorem decode_of_fields {c : CmdWord} {op : Op} {ta tb : Tag} (a b : Bus) (ho : opOf c.opField = some op)
    (ha : tagOf c.taField = some ta) (hb : tagOf c.tbField = some tb) :
    decode ⟨c, a, b⟩ = Instr.ofFields op ta tb a b := by
  simp only [decode, ho, ha, hb]

end Sys2Proof
end

