-- ==== Sys2Proof/Laws/Exec.lean ====
section
/-! SUPPORT. One equation per command: the latch it completes with. Later proofs rewrite with these and never unfold exec. -/

namespace Sys2Proof.Machine

theorem exec_iadd (a b : IntBits) (s : State) :
    exec (.iadd a b) s = .next (s.complete (encInt (a.toInt + b.toInt) false)) := rfl

theorem exec_faddS (a b : SngBits) (s : State) :
    exec (.faddS a b) s = .next (s.complete (floatAdd Params.ofUnit (.sng a) (.sng b))) := rfl

theorem exec_faddSD (a : SngBits) (b : DblBits) (s : State) :
    exec (.faddSD a b) s = .next (s.complete (floatAdd Params.ofUnit (.sng a) (.dbl b))) := rfl

theorem exec_faddDS (a : DblBits) (b : SngBits) (s : State) :
    exec (.faddDS a b) s = .next (s.complete (floatAdd Params.ofUnit (.dbl a) (.sng b))) := rfl

theorem exec_faddD (a b : DblBits) (s : State) :
    exec (.faddD a b) s = .next (s.complete (floatAdd Params.ofUnit (.dbl a) (.dbl b))) := rfl

theorem exec_isub (a b : IntBits) (s : State) :
    exec (.isub a b) s = .next (s.complete (encInt (a.toInt - b.toInt) false)) := rfl

theorem exec_fsubS (a b : SngBits) (s : State) :
    exec (.fsubS a b) s = .next (s.complete (floatSub Params.ofUnit (.sng a) (.sng b))) := rfl

theorem exec_fsubSD (a : SngBits) (b : DblBits) (s : State) :
    exec (.fsubSD a b) s = .next (s.complete (floatSub Params.ofUnit (.sng a) (.dbl b))) := rfl

theorem exec_fsubDS (a : DblBits) (b : SngBits) (s : State) :
    exec (.fsubDS a b) s = .next (s.complete (floatSub Params.ofUnit (.dbl a) (.sng b))) := rfl

theorem exec_fsubD (a b : DblBits) (s : State) :
    exec (.fsubD a b) s = .next (s.complete (floatSub Params.ofUnit (.dbl a) (.dbl b))) := rfl

theorem exec_fmulS (a b : SngBits) (s : State) :
    exec (.fmulS a b) s = .next (s.complete (floatMul Params.ofUnit (.sng a) (.sng b))) := rfl

theorem exec_fmulSD (a : SngBits) (b : DblBits) (s : State) :
    exec (.fmulSD a b) s = .next (s.complete (floatMul Params.ofUnit (.sng a) (.dbl b))) := rfl

theorem exec_fmulDS (a : DblBits) (b : SngBits) (s : State) :
    exec (.fmulDS a b) s = .next (s.complete (floatMul Params.ofUnit (.dbl a) (.sng b))) := rfl

theorem exec_fmulD (a b : DblBits) (s : State) :
    exec (.fmulD a b) s = .next (s.complete (floatMul Params.ofUnit (.dbl a) (.dbl b))) := rfl

theorem exec_idiv (a b : IntBits) (s : State) :
    exec (.idiv a b) s = .next (s.complete (intDivide a b)) := rfl

theorem exec_fdivS (a b : SngBits) (s : State) :
    exec (.fdivS a b) s = .next (s.complete (floatDiv Params.ofUnit (.sng a) (.sng b))) := rfl

theorem exec_fdivSD (a : SngBits) (b : DblBits) (s : State) :
    exec (.fdivSD a b) s = .next (s.complete (floatDiv Params.ofUnit (.sng a) (.dbl b))) := rfl

theorem exec_fdivDS (a : DblBits) (b : SngBits) (s : State) :
    exec (.fdivDS a b) s = .next (s.complete (floatDiv Params.ofUnit (.dbl a) (.sng b))) := rfl

theorem exec_fdivD (a b : DblBits) (s : State) :
    exec (.fdivD a b) s = .next (s.complete (floatDiv Params.ofUnit (.dbl a) (.dbl b))) := rfl

theorem exec_imod (a b : IntBits) (s : State) :
    exec (.imod a b) s = .next (s.complete (intRemainder a b)) := rfl

theorem exec_ineg (a : IntBits) (s : State) :
    exec (.ineg a) s = .next (s.complete (encInt (-a.toInt) false)) := rfl

theorem exec_igt (a b : IntBits) (s : State) :
    exec (.igt a b) s = .next (s.complete (compared (decide (a.toInt > b.toInt)))) := rfl

theorem exec_fgtIS (a : IntBits) (b : SngBits) (s : State) :
    exec (.fgtIS a b) s = .next (s.complete (floatGreater (.int a) (.sng b))) := rfl

theorem exec_fgtID (a : IntBits) (b : DblBits) (s : State) :
    exec (.fgtID a b) s = .next (s.complete (floatGreater (.int a) (.dbl b))) := rfl

theorem exec_fgtSI (a : SngBits) (b : IntBits) (s : State) :
    exec (.fgtSI a b) s = .next (s.complete (floatGreater (.sng a) (.int b))) := rfl

theorem exec_fgtS (a b : SngBits) (s : State) :
    exec (.fgtS a b) s = .next (s.complete (floatGreater (.sng a) (.sng b))) := rfl

theorem exec_fgtSD (a : SngBits) (b : DblBits) (s : State) :
    exec (.fgtSD a b) s = .next (s.complete (floatGreater (.sng a) (.dbl b))) := rfl

theorem exec_fgtDI (a : DblBits) (b : IntBits) (s : State) :
    exec (.fgtDI a b) s = .next (s.complete (floatGreater (.dbl a) (.int b))) := rfl

theorem exec_fgtDS (a : DblBits) (b : SngBits) (s : State) :
    exec (.fgtDS a b) s = .next (s.complete (floatGreater (.dbl a) (.sng b))) := rfl

theorem exec_fgtD (a b : DblBits) (s : State) :
    exec (.fgtD a b) s = .next (s.complete (floatGreater (.dbl a) (.dbl b))) := rfl

theorem exec_ieq (a b : IntBits) (s : State) :
    exec (.ieq a b) s = .next (s.complete (compared (decide (a = b)))) := rfl

theorem exec_feqIS (a : IntBits) (b : SngBits) (s : State) :
    exec (.feqIS a b) s = .next (s.complete (floatEqual (.int a) (.sng b))) := rfl

theorem exec_feqID (a : IntBits) (b : DblBits) (s : State) :
    exec (.feqID a b) s = .next (s.complete (floatEqual (.int a) (.dbl b))) := rfl

theorem exec_feqSI (a : SngBits) (b : IntBits) (s : State) :
    exec (.feqSI a b) s = .next (s.complete (floatEqual (.sng a) (.int b))) := rfl

theorem exec_feqS (a b : SngBits) (s : State) :
    exec (.feqS a b) s = .next (s.complete (floatEqual (.sng a) (.sng b))) := rfl

theorem exec_feqSD (a : SngBits) (b : DblBits) (s : State) :
    exec (.feqSD a b) s = .next (s.complete (floatEqual (.sng a) (.dbl b))) := rfl

theorem exec_feqDI (a : DblBits) (b : IntBits) (s : State) :
    exec (.feqDI a b) s = .next (s.complete (floatEqual (.dbl a) (.int b))) := rfl

theorem exec_feqDS (a : DblBits) (b : SngBits) (s : State) :
    exec (.feqDS a b) s = .next (s.complete (floatEqual (.dbl a) (.sng b))) := rfl

theorem exec_feqD (a b : DblBits) (s : State) :
    exec (.feqD a b) s = .next (s.complete (floatEqual (.dbl a) (.dbl b))) := rfl

theorem exec_i2fS (a : IntBits) (s : State) :
    exec (.i2fS a) s = .next (s.complete (intToFloat .sng a)) := rfl

theorem exec_i2fD (a : IntBits) (s : State) :
    exec (.i2fD a) s = .next (s.complete (intToFloat .dbl a)) := rfl

theorem exec_f2iS (a : SngBits) (s : State) :
    exec (.f2iS a) s = .next (s.complete (floatToInt .sng (onBus a) false)) := rfl

theorem exec_f2iD (a : DblBits) (s : State) :
    exec (.f2iD a) s = .next (s.complete (floatToInt .dbl a false)) := rfl

theorem exec_s2d (a : SngBits) (s : State) :
    exec (.s2d a) s = .next (s.complete (singleToDouble a)) := rfl

theorem exec_d2s (a : DblBits) (s : State) :
    exec (.d2s a) s = .next (s.complete (doubleToSingle a)) := rfl

theorem exec_f2iuS (a : SngBits) (s : State) :
    exec (.f2iuS a) s = .next (s.complete (floatToInt .sng (onBus a) true)) := rfl

theorem exec_f2iuD (a : DblBits) (s : State) :
    exec (.f2iuD a) s = .next (s.complete (floatToInt .dbl a true)) := rfl

theorem exec_rnrmS (man : BitVec 32) (exp : BitVec 16) (neg : Bool) (s : State) :
    exec (.rnrmS man exp neg) s = .next (s.complete (renormCommand .sng man.toNat exp neg)) := rfl

theorem exec_rnrmD (man : BitVec 64) (exp : BitVec 16) (neg : Bool) (s : State) :
    exec (.rnrmD man exp neg) s = .next (s.complete (renormCommand .dbl man.toNat exp neg)) := rfl

end Sys2Proof.Machine
end

