-- ==== Sys2Proof/Laws/PerInstr.lean ====
section
/-! SUPPORT. What holds of every command as syntax: the transaction the encoder writes is well formed. -/

namespace Sys2Proof.Laws

/-- A command's transaction has a legal word and canonical buses (R43, R47). -/
def Encoded.Statement (i : Instr) : Prop := (encode i).wellFormed = true

open Machine in
/-- The check on a legal word whose operands, of these widths, stand alone on their buses. -/
theorem wellFormed_onBus {m n : Nat} (c : CmdWord) (a : BitVec m) (b : BitVec n) (hm : m ≤ 64) (hn : n ≤ 64)
    (hc : (WellFormed.illegalClass c).isNone = true) (ha : WellFormed.usedA c = m) (hb : WellFormed.usedB c = n) :
    (⟨c, onBus a, onBus b⟩ : Transaction).wellFormed = true := by
  simp only [Transaction.wellFormed, Transaction.legal, Transaction.canonicalA, Transaction.canonicalB, hc, ha, hb,
    onBus_toNat hm, onBus_toNat hn, Bool.true_and, Bool.and_eq_true, decide_eq_true_eq]
  exact ⟨a.isLt, b.isLt⟩

open Machine in
/-- The same for a command that uses bus `A` alone. -/
theorem wellFormed_onBusA {m : Nat} (c : CmdWord) (a : BitVec m) (hm : m ≤ 64)
    (hc : (WellFormed.illegalClass c).isNone = true) (ha : WellFormed.usedA c = m) (hb : WellFormed.usedB c = 0) :
    (⟨c, onBus a, 0⟩ : Transaction).wellFormed = true := by
  simp only [Transaction.wellFormed, Transaction.legal, Transaction.canonicalA, Transaction.canonicalB, hc, ha, hb,
    onBus_toNat hm, Bool.true_and, Bool.and_eq_true, decide_eq_true_eq]
  exact ⟨a.isLt, by decide⟩

namespace Encoded

theorem iadd (a b : IntBits) : Statement (.iadd a b) :=
  wellFormed_onBus _ a b (by decide) (by decide) (by decide) (by decide) (by decide)

theorem faddS (a b : SngBits) : Statement (.faddS a b) :=
  wellFormed_onBus _ a b (by decide) (by decide) (by decide) (by decide) (by decide)

theorem faddSD (a : SngBits) (b : DblBits) : Statement (.faddSD a b) :=
  wellFormed_onBus _ a b (by decide) (by decide) (by decide) (by decide) (by decide)

theorem faddDS (a : DblBits) (b : SngBits) : Statement (.faddDS a b) :=
  wellFormed_onBus _ a b (by decide) (by decide) (by decide) (by decide) (by decide)

theorem faddD (a b : DblBits) : Statement (.faddD a b) :=
  wellFormed_onBus _ a b (by decide) (by decide) (by decide) (by decide) (by decide)

theorem isub (a b : IntBits) : Statement (.isub a b) :=
  wellFormed_onBus _ a b (by decide) (by decide) (by decide) (by decide) (by decide)

theorem fsubS (a b : SngBits) : Statement (.fsubS a b) :=
  wellFormed_onBus _ a b (by decide) (by decide) (by decide) (by decide) (by decide)

theorem fsubSD (a : SngBits) (b : DblBits) : Statement (.fsubSD a b) :=
  wellFormed_onBus _ a b (by decide) (by decide) (by decide) (by decide) (by decide)

theorem fsubDS (a : DblBits) (b : SngBits) : Statement (.fsubDS a b) :=
  wellFormed_onBus _ a b (by decide) (by decide) (by decide) (by decide) (by decide)

theorem fsubD (a b : DblBits) : Statement (.fsubD a b) :=
  wellFormed_onBus _ a b (by decide) (by decide) (by decide) (by decide) (by decide)

theorem fmulS (a b : SngBits) : Statement (.fmulS a b) :=
  wellFormed_onBus _ a b (by decide) (by decide) (by decide) (by decide) (by decide)

theorem fmulSD (a : SngBits) (b : DblBits) : Statement (.fmulSD a b) :=
  wellFormed_onBus _ a b (by decide) (by decide) (by decide) (by decide) (by decide)

theorem fmulDS (a : DblBits) (b : SngBits) : Statement (.fmulDS a b) :=
  wellFormed_onBus _ a b (by decide) (by decide) (by decide) (by decide) (by decide)

theorem fmulD (a b : DblBits) : Statement (.fmulD a b) :=
  wellFormed_onBus _ a b (by decide) (by decide) (by decide) (by decide) (by decide)

theorem idiv (a b : IntBits) : Statement (.idiv a b) :=
  wellFormed_onBus _ a b (by decide) (by decide) (by decide) (by decide) (by decide)

theorem fdivS (a b : SngBits) : Statement (.fdivS a b) :=
  wellFormed_onBus _ a b (by decide) (by decide) (by decide) (by decide) (by decide)

theorem fdivSD (a : SngBits) (b : DblBits) : Statement (.fdivSD a b) :=
  wellFormed_onBus _ a b (by decide) (by decide) (by decide) (by decide) (by decide)

theorem fdivDS (a : DblBits) (b : SngBits) : Statement (.fdivDS a b) :=
  wellFormed_onBus _ a b (by decide) (by decide) (by decide) (by decide) (by decide)

theorem fdivD (a b : DblBits) : Statement (.fdivD a b) :=
  wellFormed_onBus _ a b (by decide) (by decide) (by decide) (by decide) (by decide)

theorem imod (a b : IntBits) : Statement (.imod a b) :=
  wellFormed_onBus _ a b (by decide) (by decide) (by decide) (by decide) (by decide)

theorem ineg (a : IntBits) : Statement (.ineg a) :=
  wellFormed_onBusA _ a (by decide) (by decide) (by decide) (by decide)

theorem igt (a b : IntBits) : Statement (.igt a b) :=
  wellFormed_onBus _ a b (by decide) (by decide) (by decide) (by decide) (by decide)

theorem fgtIS (a : IntBits) (b : SngBits) : Statement (.fgtIS a b) :=
  wellFormed_onBus _ a b (by decide) (by decide) (by decide) (by decide) (by decide)

theorem fgtID (a : IntBits) (b : DblBits) : Statement (.fgtID a b) :=
  wellFormed_onBus _ a b (by decide) (by decide) (by decide) (by decide) (by decide)

theorem fgtSI (a : SngBits) (b : IntBits) : Statement (.fgtSI a b) :=
  wellFormed_onBus _ a b (by decide) (by decide) (by decide) (by decide) (by decide)

theorem fgtS (a b : SngBits) : Statement (.fgtS a b) :=
  wellFormed_onBus _ a b (by decide) (by decide) (by decide) (by decide) (by decide)

theorem fgtSD (a : SngBits) (b : DblBits) : Statement (.fgtSD a b) :=
  wellFormed_onBus _ a b (by decide) (by decide) (by decide) (by decide) (by decide)

theorem fgtDI (a : DblBits) (b : IntBits) : Statement (.fgtDI a b) :=
  wellFormed_onBus _ a b (by decide) (by decide) (by decide) (by decide) (by decide)

theorem fgtDS (a : DblBits) (b : SngBits) : Statement (.fgtDS a b) :=
  wellFormed_onBus _ a b (by decide) (by decide) (by decide) (by decide) (by decide)

theorem fgtD (a b : DblBits) : Statement (.fgtD a b) :=
  wellFormed_onBus _ a b (by decide) (by decide) (by decide) (by decide) (by decide)

theorem ieq (a b : IntBits) : Statement (.ieq a b) :=
  wellFormed_onBus _ a b (by decide) (by decide) (by decide) (by decide) (by decide)

theorem feqIS (a : IntBits) (b : SngBits) : Statement (.feqIS a b) :=
  wellFormed_onBus _ a b (by decide) (by decide) (by decide) (by decide) (by decide)

theorem feqID (a : IntBits) (b : DblBits) : Statement (.feqID a b) :=
  wellFormed_onBus _ a b (by decide) (by decide) (by decide) (by decide) (by decide)

theorem feqSI (a : SngBits) (b : IntBits) : Statement (.feqSI a b) :=
  wellFormed_onBus _ a b (by decide) (by decide) (by decide) (by decide) (by decide)

theorem feqS (a b : SngBits) : Statement (.feqS a b) :=
  wellFormed_onBus _ a b (by decide) (by decide) (by decide) (by decide) (by decide)

theorem feqSD (a : SngBits) (b : DblBits) : Statement (.feqSD a b) :=
  wellFormed_onBus _ a b (by decide) (by decide) (by decide) (by decide) (by decide)

theorem feqDI (a : DblBits) (b : IntBits) : Statement (.feqDI a b) :=
  wellFormed_onBus _ a b (by decide) (by decide) (by decide) (by decide) (by decide)

theorem feqDS (a : DblBits) (b : SngBits) : Statement (.feqDS a b) :=
  wellFormed_onBus _ a b (by decide) (by decide) (by decide) (by decide) (by decide)

theorem feqD (a b : DblBits) : Statement (.feqD a b) :=
  wellFormed_onBus _ a b (by decide) (by decide) (by decide) (by decide) (by decide)

theorem i2fS (a : IntBits) : Statement (.i2fS a) :=
  wellFormed_onBusA _ a (by decide) (by decide) (by decide) (by decide)

theorem i2fD (a : IntBits) : Statement (.i2fD a) :=
  wellFormed_onBusA _ a (by decide) (by decide) (by decide) (by decide)

theorem f2iS (a : SngBits) : Statement (.f2iS a) :=
  wellFormed_onBusA _ a (by decide) (by decide) (by decide) (by decide)

theorem f2iD (a : DblBits) : Statement (.f2iD a) :=
  wellFormed_onBusA _ a (by decide) (by decide) (by decide) (by decide)

theorem s2d (a : SngBits) : Statement (.s2d a) :=
  wellFormed_onBusA _ a (by decide) (by decide) (by decide) (by decide)

theorem d2s (a : DblBits) : Statement (.d2s a) :=
  wellFormed_onBusA _ a (by decide) (by decide) (by decide) (by decide)

theorem f2iuS (a : SngBits) : Statement (.f2iuS a) :=
  wellFormed_onBusA _ a (by decide) (by decide) (by decide) (by decide)

theorem f2iuD (a : DblBits) : Statement (.f2iuD a) :=
  wellFormed_onBusA _ a (by decide) (by decide) (by decide) (by decide)

theorem rnrmS (man : BitVec 32) (exp : BitVec 16) (neg : Bool) : Statement (.rnrmS man exp neg) :=
  wellFormed_onBus _ man (BitVec.ofBool neg ++ exp) (by decide) (by decide) (by decide) (by decide) (by decide)

theorem rnrmD (man : BitVec 64) (exp : BitVec 16) (neg : Bool) : Statement (.rnrmD man exp neg) :=
  wellFormed_onBus _ man (BitVec.ofBool neg ++ exp) (by decide) (by decide) (by decide) (by decide) (by decide)

end Encoded

end Sys2Proof.Laws
end

