-- ==== Sys2Proof/Laws/Step.lean ====
section
/-! SUPPORT. Everything a step can do, and what the step of an undisturbed unit with a command in progress is. -/

namespace Sys2Proof.Machine

/-- The cases of a step that answers a next state. -/
theorem step_cases {s s' : State} (h : step s = .next s') :
    (∃ rest, s.host = .reset :: rest ∧ s' = s.applyReset rest) ∨
    (∃ rest, s.host = .read :: rest ∧ s.latch.valid = true ∧ s' = { s with host := rest }) ∨
    (∃ c, s.inProgress = some c ∧ s.undisturbed = true ∧ s.runCommand c = .next s') ∨
    (∃ t rest, s.inProgress = none ∧ s.host = .issue t :: rest ∧ s' = s.accept t rest) ∨
    (∃ rest, s.inProgress = none ∧ s.host = .waitReady :: rest ∧ s' = { s with host := rest }) ∨
    (s.inProgress = none ∧ s.host = [] ∧ s' = s) := by
  unfold step at h
  split at h
  · next rest hh =>
    cases h
    exact .inl ⟨rest, hh, rfl⟩
  · next rest hh =>
    unfold State.hostRead at h
    split at h
    · next hv =>
      cases h
      exact .inr (.inl ⟨rest, hh, hv, rfl⟩)
    · cases h
  · cases h
  · next t rest hh =>
    split at h
    · next c hc => exact .inr (.inr (.inl ⟨c, hc, by simp [State.undisturbed, hh], h⟩))
    · next hn =>
      cases h
      exact .inr (.inr (.inr (.inl ⟨t, rest, hn, hh, rfl⟩)))
  · next rest hh =>
    split at h
    · next c hc => exact .inr (.inr (.inl ⟨c, hc, by simp [State.undisturbed, hh], h⟩))
    · next hn =>
      cases h
      exact .inr (.inr (.inr (.inr (.inl ⟨rest, hn, hh, rfl⟩))))
  · next hh =>
    split at h
    · next c hc => exact .inr (.inr (.inl ⟨c, hc, by simp [State.undisturbed, hh], h⟩))
    · next hn =>
      cases h
      exact .inr (.inr (.inr (.inr (.inr ⟨hn, hh, rfl⟩))))

/-- A command in progress, undisturbed, runs in the next step. -/
theorem step_inProgress {s : State} {c : Transaction} (hc : s.inProgress = some c) (hu : s.undisturbed = true) :
    step s = s.runCommand c := by
  unfold State.undisturbed at hu
  unfold step
  split at hu <;> simp_all

/-- A run takes its first step and goes on from there. -/
theorem run_succ {s s' : State} (k : Nat) (h : step s = .next s') :
    Host.Core.run core (k + 1) s = Host.Core.run core k s' := by
  have e := Host.Core.run.eq_2 core s k
  rw [show Host.Core.step core s = .next s' from h] at e
  exact e

theorem runCommand_ok {s : State} {c : Transaction} {i : Instr} (h : decode c = .ok i) :
    s.runCommand c = exec i s := by
  simp [State.runCommand, h]

theorem runCommand_error {s : State} {c : Transaction} {e : IllegalWord} (h : decode c = .error e) :
    s.runCommand c = .next (s.complete refuse) := by
  simp [State.runCommand, h]

end Sys2Proof.Machine
end

