-- ==== Sys2Proof/Tests/Slice0.lean ====
section
/-! SUPPORT. Small checks of the model: ill-formed words refused, every command word written out and decoded, vectors of `95_test_vectors.md` one step each, and for every statement with hypotheses a concrete input that meets them. -/

open Sys2Proof Sys2Proof.Machine

namespace Sys2Proof.Tests

/-- What a latch shows the host: value, tag and the four flags `T ++ ILL ++ DBZ ++ OVF`. -/
def shown (l : Latch) : Bus × BitVec 2 × BitVec 4 := (l.val, l.tag, l.flags)

/-- What the latch shows one step after a transaction has been accepted by the unit as reset leaves it. -/
def answer (c : CmdWord) (a b : Bus) : Option (Bus × BitVec 2 × BitVec 4) :=
  match step (State.reset.withAccepted ⟨c, a, b⟩) with
  | .next s => some (shown s.latch)
  | .fault _ => none
  | .refused _ => none

/-- The unit with a valid latch, nothing in progress, and a host with these inputs to come. -/
def ready (host : List HostInput) : State :=
  { latch := result .int 5, inProgress := none, host := host }

/-- The same unit with a command in progress. -/
def busy (t : Transaction) (host : List HostInput) : State :=
  { ready host with inProgress := some t }

/-- A bus whose bytes all differ. -/
def busA : Bus := 0x8877665544332211

/-- Another bus whose bytes all differ. -/
def busB : Bus := 0xFFEEDDCCBBAA9988

/-! ### Ill-formed words: one of each class of R47, refused by the check, by the decoder and by the unit -/

/-- Whether check, decoder and unit agree that the word is of the class. -/
def refusedAs (c : CmdWord) (k : IllegalWord) : Bool :=
  decide (WellFormed.illegalClass c = some k) && !(Transaction.legal ⟨c, 0, 0⟩) &&
  decide (decode ⟨c, busA, busB⟩ = .error k) && decide (answer c busA busB = some (0, 0b00, 0b0100))

theorem test_illformed_reservedOp : (refusedAs 0b1011_00_00 .reservedOp && refusedAs 0b1111_11_11 .reservedOp) = true := by
  decide

theorem test_illformed_reservedTag :
    (refusedAs 0b0000_11_00 .reservedTag && refusedAs 0b1010_00_11 .reservedTag) = true := by
  decide

theorem test_illformed_mulInteger :
    (refusedAs 0b0010_00_00 .mulInteger && refusedAs 0b0010_01_00 .mulInteger) = true := by
  decide

theorem test_illformed_modFloat : (refusedAs 0b0100_01_01 .modFloat && refusedAs 0b0100_00_10 .modFloat) = true := by
  decide

theorem test_illformed_negFloat : (refusedAs 0b0101_01_00 .negFloat && refusedAs 0b0101_10_01 .negFloat) = true := by
  decide

theorem test_illformed_negSecondTag :
    (refusedAs 0b0101_00_01 .negSecondTag && refusedAs 0b0101_00_10 .negSecondTag) = true := by
  decide

theorem test_illformed_mixedArithmetic :
    (refusedAs 0b0000_00_01 .mixedArithmetic && refusedAs 0b0001_10_00 .mixedArithmetic &&
      refusedAs 0b0011_00_10 .mixedArithmetic) = true := by
  decide

theorem test_illformed_cvtSameType :
    (refusedAs 0b1000_00_00 .cvtSameType && refusedAs 0b1000_10_10 .cvtSameType) = true := by
  decide

theorem test_illformed_cvtuOperands :
    (refusedAs 0b1001_00_00 .cvtuOperands && refusedAs 0b1001_01_10 .cvtuOperands) = true := by
  decide

theorem test_illformed_rnrmTags : (refusedAs 0b1010_01_01 .rnrmTags && refusedAs 0b1010_00_00 .rnrmTags) = true := by
  decide

/-- A bus bit above the operand makes a transaction non-canonical; the highest operand bit does not. -/
theorem test_illformed_busA :
    Transaction.wellFormed ⟨0x00, 0x10000, 0⟩ = false ∧ Transaction.wellFormed ⟨0x00, 0xFFFF, 0⟩ = true ∧
    Transaction.wellFormed ⟨0xA1, 0x100000000, 0⟩ = false ∧ Transaction.wellFormed ⟨0xA1, 0xFFFFFFFF, 0⟩ = true := by
  decide

theorem test_illformed_busB :
    Transaction.wellFormed ⟨0x05, 0, 0x100000000⟩ = false ∧ Transaction.wellFormed ⟨0x50, 0, 1⟩ = false ∧
    Transaction.wellFormed ⟨0xA2, 0, 0x20000⟩ = false ∧ Transaction.wellFormed ⟨0xA2, 0, 0x1FFFF⟩ = true := by
  decide

/-! ### Every command word, written out from `op`, `ta`, `tb` of R44 -/

theorem test_decode_integer :
    decode ⟨0b0000_00_00, busA, busB⟩ = .ok (.iadd 0x2211 0x9988) ∧
    decode ⟨0b0001_00_00, busA, busB⟩ = .ok (.isub 0x2211 0x9988) ∧
    decode ⟨0b0011_00_00, busA, busB⟩ = .ok (.idiv 0x2211 0x9988) ∧
    decode ⟨0b0100_00_00, busA, busB⟩ = .ok (.imod 0x2211 0x9988) ∧
    decode ⟨0b0101_00_00, busA, busB⟩ = .ok (.ineg 0x2211) ∧
    decode ⟨0b0110_00_00, busA, busB⟩ = .ok (.igt 0x2211 0x9988) ∧
    decode ⟨0b0111_00_00, busA, busB⟩ = .ok (.ieq 0x2211 0x9988) := by
  decide

theorem test_decode_add :
    decode ⟨0b0000_01_01, busA, busB⟩ = .ok (.faddS 0x44332211 0xbbaa9988) ∧
    decode ⟨0b0000_01_10, busA, busB⟩ = .ok (.faddSD 0x44332211 0xffeeddccbbaa9988) ∧
    decode ⟨0b0000_10_01, busA, busB⟩ = .ok (.faddDS 0x8877665544332211 0xbbaa9988) ∧
    decode ⟨0b0000_10_10, busA, busB⟩ = .ok (.faddD 0x8877665544332211 0xffeeddccbbaa9988) := by
  decide

theorem test_decode_sub :
    decode ⟨0b0001_01_01, busA, busB⟩ = .ok (.fsubS 0x44332211 0xbbaa9988) ∧
    decode ⟨0b0001_01_10, busA, busB⟩ = .ok (.fsubSD 0x44332211 0xffeeddccbbaa9988) ∧
    decode ⟨0b0001_10_01, busA, busB⟩ = .ok (.fsubDS 0x8877665544332211 0xbbaa9988) ∧
    decode ⟨0b0001_10_10, busA, busB⟩ = .ok (.fsubD 0x8877665544332211 0xffeeddccbbaa9988) := by
  decide

theorem test_decode_mul :
    decode ⟨0b0010_01_01, busA, busB⟩ = .ok (.fmulS 0x44332211 0xbbaa9988) ∧
    decode ⟨0b0010_01_10, busA, busB⟩ = .ok (.fmulSD 0x44332211 0xffeeddccbbaa9988) ∧
    decode ⟨0b0010_10_01, busA, busB⟩ = .ok (.fmulDS 0x8877665544332211 0xbbaa9988) ∧
    decode ⟨0b0010_10_10, busA, busB⟩ = .ok (.fmulD 0x8877665544332211 0xffeeddccbbaa9988) := by
  decide

theorem test_decode_div :
    decode ⟨0b0011_01_01, busA, busB⟩ = .ok (.fdivS 0x44332211 0xbbaa9988) ∧
    decode ⟨0b0011_01_10, busA, busB⟩ = .ok (.fdivSD 0x44332211 0xffeeddccbbaa9988) ∧
    decode ⟨0b0011_10_01, busA, busB⟩ = .ok (.fdivDS 0x8877665544332211 0xbbaa9988) ∧
    decode ⟨0b0011_10_10, busA, busB⟩ = .ok (.fdivD 0x8877665544332211 0xffeeddccbbaa9988) := by
  decide

theorem test_decode_greater :
    decode ⟨0b0110_00_01, busA, busB⟩ = .ok (.fgtIS 0x2211 0xbbaa9988) ∧
    decode ⟨0b0110_00_10, busA, busB⟩ = .ok (.fgtID 0x2211 0xffeeddccbbaa9988) ∧
    decode ⟨0b0110_01_00, busA, busB⟩ = .ok (.fgtSI 0x44332211 0x9988) ∧
    decode ⟨0b0110_01_01, busA, busB⟩ = .ok (.fgtS 0x44332211 0xbbaa9988) ∧
    decode ⟨0b0110_01_10, busA, busB⟩ = .ok (.fgtSD 0x44332211 0xffeeddccbbaa9988) ∧
    decode ⟨0b0110_10_00, busA, busB⟩ = .ok (.fgtDI 0x8877665544332211 0x9988) ∧
    decode ⟨0b0110_10_01, busA, busB⟩ = .ok (.fgtDS 0x8877665544332211 0xbbaa9988) ∧
    decode ⟨0b0110_10_10, busA, busB⟩ = .ok (.fgtD 0x8877665544332211 0xffeeddccbbaa9988) := by
  decide

theorem test_decode_equal :
    decode ⟨0b0111_00_01, busA, busB⟩ = .ok (.feqIS 0x2211 0xbbaa9988) ∧
    decode ⟨0b0111_00_10, busA, busB⟩ = .ok (.feqID 0x2211 0xffeeddccbbaa9988) ∧
    decode ⟨0b0111_01_00, busA, busB⟩ = .ok (.feqSI 0x44332211 0x9988) ∧
    decode ⟨0b0111_01_01, busA, busB⟩ = .ok (.feqS 0x44332211 0xbbaa9988) ∧
    decode ⟨0b0111_01_10, busA, busB⟩ = .ok (.feqSD 0x44332211 0xffeeddccbbaa9988) ∧
    decode ⟨0b0111_10_00, busA, busB⟩ = .ok (.feqDI 0x8877665544332211 0x9988) ∧
    decode ⟨0b0111_10_01, busA, busB⟩ = .ok (.feqDS 0x8877665544332211 0xbbaa9988) ∧
    decode ⟨0b0111_10_10, busA, busB⟩ = .ok (.feqD 0x8877665544332211 0xffeeddccbbaa9988) := by
  decide

theorem test_decode_convert :
    decode ⟨0b1000_00_01, busA, busB⟩ = .ok (.i2fS 0x2211) ∧
    decode ⟨0b1000_00_10, busA, busB⟩ = .ok (.i2fD 0x2211) ∧
    decode ⟨0b1000_01_00, busA, busB⟩ = .ok (.f2iS 0x44332211) ∧
    decode ⟨0b1000_10_00, busA, busB⟩ = .ok (.f2iD 0x8877665544332211) ∧
    decode ⟨0b1000_01_10, busA, busB⟩ = .ok (.s2d 0x44332211) ∧
    decode ⟨0b1000_10_01, busA, busB⟩ = .ok (.d2s 0x8877665544332211) := by
  decide

theorem test_decode_convert_unsigned :
    decode ⟨0b1001_01_00, busA, busB⟩ = .ok (.f2iuS 0x44332211) ∧
    decode ⟨0b1001_10_00, busA, busB⟩ = .ok (.f2iuD 0x8877665544332211) := by
  decide

theorem test_decode_renormalize :
    decode ⟨0b1010_00_01, busA, busB⟩ = .ok (.rnrmS 0x44332211 0x9988 false) ∧
    decode ⟨0b1010_00_10, busA, busB⟩ = .ok (.rnrmD 0x8877665544332211 0x9988 false) := by
  decide

/-- The sign of RNRM is `B[16]`, its exponent `B[15:0]` (R85). -/
theorem test_decode_renormalize_sign :
    decode ⟨0b1010_00_01, 0x80000000, 0x1FFFB⟩ = .ok (.rnrmS 0x80000000 0xFFFB true) ∧
    decode ⟨0b1010_00_10, 1, 0x10081⟩ = .ok (.rnrmD 1 0x81 true) := by
  decide

/-- The encoder's bytes are those of R44. -/
theorem test_encode :
    encode (.fsubSD 0x84200000 7) = ⟨0b0001_01_10, 0x84200000, 7⟩ ∧
    encode (.ineg 7) = ⟨0b0101_00_00, 7, 0⟩ ∧
    encode (.rnrmS 0x80000000 0xFFFB true) = ⟨0b1010_00_01, 0x80000000, 0x1FFFB⟩ := by
  decide

/-- A row of the opcode table read and run as the first command after reset: INEG of 0, and an illegal word. -/
theorem test_table_word :
    decodeTableWord 8 0x50 = some (.ineg 0) ∧ decodeTableWord 8 0x20 = none ∧
    (match step (State.reset.withFetchWord 8 0x50) with
      | .next s => shown s.latch
      | .fault _ => (1, 0, 0)
      | .refused _ => (1, 0, 0)) = (0, 0b00, 0b0000) := by
  decide

/-- Above the command byte the numbering goes on with bus `A`, then bus `B` (log 9). -/
theorem test_table_word_operands :
    decodeTableWord 136 (0x10 + 0x0102 * 2 ^ 8 + 0x0304 * 2 ^ 72) = some (.isub 0x0102 0x0304) := by
  decide

/-! ### One step each, expected results from `95_test_vectors.md` section 2 -/

theorem test_iadd :
    answer 0x00 0x7fff 1 = some (0x7fff, 0b00, 1) ∧
    answer 0x00 0x8000 0x7fff = some (0xffff, 0b00, 0) := by
  decide

theorem test_faddS :
    answer 0x05 0x817fffff 0x79000201 = some (0x82004000, 0b01, 0) ∧
    answer 0x05 0x800000 0xff1234 = some (0, 0b01, 0) := by
  decide

theorem test_faddSD :
    answer 0x06 0x7d4ccccd 0x7d4ccccccccccccd = some (0x7e4ccccce6666666, 0b10, 0) ∧
    answer 0x06 0x800000 0x8100000000000000 = some (0x8100000000000000, 0b10, 0) := by
  decide

theorem test_faddDS :
    answer 0x09 0x8420000000000000 0x83200000 = some (0x8470000000000000, 0b10, 0) ∧
    answer 0x09 0x8100000000000000 0x81000001 = some (0x8200000080000000, 0b10, 0) := by
  decide

theorem test_faddD :
    answer 0x0A 0x8100000000000001 0x4900000000000000 = some (0x8100000000000002, 0b10, 0) ∧
    answer 0x0A 0xb900000000000000 0x8180000000000000 = some (0xb87fffffffffffff, 0b10, 0) := by
  decide

theorem test_isub :
    answer 0x10 0xffff 0x8000 = some (0x7fff, 0b00, 0) ∧
    answer 0x10 0x7fff 0xffff = some (0x7fff, 0b00, 1) := by
  decide

theorem test_fsubS :
    answer 0x15 0x81000000 0x69000000 = some (0x807fffff, 0b01, 0) ∧
    answer 0x15 0 0 = some (0, 0b01, 0) := by
  decide

theorem test_fsubSD :
    answer 0x16 0x7d4ccccd 0x7d4ccccccccccccd = some (0x634ccccccc000000, 0b10, 0) ∧
    answer 0x16 0xff7fffff 0xff7fffffffffffff = some (0xe7ffffffff000000, 0b10, 0) := by
  decide

theorem test_fsubDS :
    answer 0x19 0x8100000000000000 0x81000001 = some (0x6a80000000000000, 0b10, 0) := by
  decide

theorem test_fsubD :
    answer 0x1A 0x8100000000000000 0x4900000000000000 = some (0x807fffffffffffff, 0b10, 0) ∧
    answer 0x1A 0xffffffffffffffff 0xff7fffffffffffff = some (0xffffffffffffffff, 0b10, 1) := by
  decide

theorem test_fmulS :
    answer 0x25 0 0xff7fffff = some (0, 0b01, 0) ∧
    answer 0x25 0xff7fffff 0x800000 = some (0, 0b01, 0) := by
  decide

theorem test_fmulD :
    answer 0x2A 0 0x8320000000000000 = some (0, 0b10, 0) := by
  decide

theorem test_idiv :
    answer 0x30 0x8000 0xffff = some (0x7fff, 0b00, 1) ∧
    answer 0x30 0xfff9 0 = some (0xffffffff, 0b01, 2) := by
  decide

theorem test_fdivS :
    answer 0x35 0x800000 0 = some (0xffffffff, 0b01, 2) ∧
    answer 0x35 0x800000 0x83200000 = some (0, 0b01, 0) := by
  decide

theorem test_fdivSD :
    answer 0x36 0x800000 0 = some (0xffffffffffffffff, 0b10, 2) := by
  decide

theorem test_fdivDS :
    answer 0x39 0x8100000000000000 0x563412 = some (0xff7fffffffffffff, 0b10, 2) := by
  decide

theorem test_fdivD :
    answer 0x3A 0x8180000000000000 0 = some (0xffffffffffffffff, 0b10, 2) ∧
    answer 0x3A 0 0x8320000000000000 = some (0, 0b10, 0) := by
  decide

theorem test_imod :
    answer 0x40 6 0xfffd = some (0, 0b00, 0) ∧
    answer 0x40 0xfff9 0 = some (0xffffffff, 0b01, 2) := by
  decide

theorem test_ineg :
    answer 0x50 7 0xdeadbeef = some (0xfff9, 0b00, 0) ∧
    answer 0x50 0x8000 0xdeadbeef = some (0x7fff, 0b00, 1) := by
  decide

theorem test_igt :
    answer 0x60 0xffff 1 = some (0, 0b00, 0) ∧
    answer 0x60 0xdead0005 5 = some (0, 0b00, 0) := by
  decide

theorem test_fgtIS :
    answer 0x61 0xb 0x84200000 = some (0, 0b00, 8) ∧
    answer 0x61 0x8000 0x90800000 = some (0, 0b00, 0) := by
  decide

theorem test_fgtID :
    answer 0x62 0xa 0x8420000000000000 = some (0, 0b00, 0) ∧
    answer 0x62 0x8000 0x9080000000000000 = some (0, 0b00, 0) := by
  decide

theorem test_fgtSI :
    answer 0x64 0x84200000 9 = some (0, 0b00, 8) ∧
    answer 0x64 0x80000000 0 = some (0, 0b00, 8) := by
  decide

theorem test_fgtS :
    answer 0x65 0xff1234 0 = some (0, 0b00, 0) ∧
    answer 0x65 0x81800000 0x82800000 = some (0, 0b00, 8) := by
  decide

theorem test_fgtSD :
    answer 0x66 0x7d4ccccd 0x7d4ccccccccccccd = some (0, 0b00, 8) ∧
    answer 0x66 0xffffffff 0xffffffffffffffff = some (0, 0b00, 8) := by
  decide

theorem test_fgtDI :
    answer 0x68 0x8420000000000001 0xa = some (0, 0b00, 8) ∧
    answer 0x68 0 0 = some (0, 0b00, 0) := by
  decide

theorem test_fgtDS :
    answer 0x69 0x8100000000000001 0x81000000 = some (0, 0b00, 8) ∧
    answer 0x69 0 0x81800000 = some (0, 0b00, 8) := by
  decide

theorem test_fgtD :
    answer 0x6A 0x8420000000000000 0x8320000000000000 = some (0, 0b00, 8) := by
  decide

theorem test_ieq :
    answer 0x70 0xffff 1 = some (0, 0b00, 0) ∧
    answer 0x70 0xdead0005 5 = some (0, 0b00, 8) := by
  decide

theorem test_feqIS :
    answer 0x71 0 0x800000 = some (0, 0b00, 8) ∧
    answer 0x71 0x7fff 0x8f7ffe01 = some (0, 0b00, 0) := by
  decide

theorem test_feqID :
    answer 0x72 0xa 0x8420000000000000 = some (0, 0b00, 8) ∧
    answer 0x72 0x8000 0x9080000000000000 = some (0, 0b00, 8) := by
  decide

theorem test_feqSI :
    answer 0x74 0x84200000 9 = some (0, 0b00, 0) ∧
    answer 0x74 0x80000000 1 = some (0, 0b00, 0) := by
  decide

theorem test_feqS :
    answer 0x75 0 0x800000 = some (0, 0b00, 8) ∧
    answer 0x75 0x81800000 0x82800000 = some (0, 0b00, 0) := by
  decide

theorem test_feqSD :
    answer 0x76 0x81000000 0x8100000000000000 = some (0, 0b00, 8) ∧
    answer 0x76 0x7d4ccccd 0x7d4ccccccccccccd = some (0, 0b00, 0) := by
  decide

theorem test_feqDI :
    answer 0x78 0x8420000000000001 0xa = some (0, 0b00, 0) ∧
    answer 0x78 0 0 = some (0, 0b00, 8) := by
  decide

theorem test_feqDS :
    answer 0x79 0x7d4ccccccccccccd 0x7d4ccccd = some (0, 0b00, 0) ∧
    answer 0x79 0x8100000000000001 0x81000000 = some (0, 0b00, 0) := by
  decide

theorem test_feqD :
    answer 0x7A 0x8420000000000000 0x8320000000000000 = some (0, 0b00, 0) := by
  decide

theorem test_i2fS :
    answer 0x81 0xcfc7 0x8000000000000000 = some (0x8ec0e400, 0b01, 0) ∧
    answer 0x81 0x8000 0x8000000000000000 = some (0x90800000, 0b01, 0) := by
  decide

theorem test_i2fD :
    answer 0x81 0x8001 0x8000000000000000 = some (0x8ffffe00, 0b01, 0) ∧
    answer 0x81 0 0x8000000000000000 = some (0, 0b01, 0) := by
  decide

theorem test_f2iS :
    answer 0x84 0x82200000 7 = some (3, 0b00, 0) ∧
    answer 0x84 0x90800080 7 = some (0x8000, 0b00, 1) := by
  decide

theorem test_s2d :
    answer 0x86 0x7d4ccccd 7 = some (0x7d4ccccd00000000, 0b10, 0) ∧
    answer 0x86 0xff1234 7 = some (0, 0b10, 0) := by
  decide

theorem test_f2iD :
    answer 0x88 0x8f7ffeffffffffff 7 = some (0x7fff, 0b00, 0) ∧
    answer 0x88 0xff7fffffffffffff 7 = some (0x7fff, 0b00, 1) := by
  decide

theorem test_d2s :
    answer 0x89 0x8100000080000000 7 = some (0x81000000, 0b01, 0) ∧
    answer 0x89 0xff7fffff80000000 7 = some (0xff7fffff, 0b01, 1) := by
  decide

theorem test_f2iuS :
    answer 0x94 0x901c4000 7 = some (0x9c40, 0b00, 0) ∧
    answer 0x94 0x907fff80 7 = some (0x7fff, 0b00, 1) := by
  decide

theorem test_f2iuD :
    answer 0x98 0x907fff7fffffffff 7 = some (0xffff, 0b00, 0) ∧
    answer 0x98 0x9080008000000000 7 = some (0x8000, 0b00, 1) := by
  decide

theorem test_rnrmS :
    answer 0xA1 0xffffffff 0xabc00000 = some (0x1000000, 0b01, 0) ∧
    answer 0xA1 0xffffff80 0xabc000ff = some (0xff7fffff, 0b01, 1) := by
  decide

theorem test_rnrmD :
    answer 0xA2 0x8000000000000180 0xabc10081 = some (0x8180000000000002, 0b10, 0) ∧
    answer 0xA2 0xffffffffffffff80 0xabc100ff = some (0xffffffffffffffff, 0b10, 1) := by
  decide

/-! ### The vectors that section 2 marks as holding under a default parameter -/

theorem test_faddS_default :
    shown (floatAdd Params.default (.sng 0x81000000) (.sng 0x78ffffff)) = (0x807f0000, 0b01, 0) := by
  decide

theorem test_fmulS_default :
    shown (floatMul Params.default (.sng 0x7d4ccccd) (.sng 0x7d4ccccd)) = (0x7a23d70b, 0b01, 0) ∧
    shown (floatMul Params.default (.sng 0x1000000) (.sng 0x80000000)) = (0, 0b01, 0) := by
  decide

theorem test_fmulSD_default :
    shown (floatMul Params.default (.sng 0x82400000) (.dbl 0x8320000000000000)) = (0x8470000000000000, 0b10, 0) ∧
    shown (floatMul Params.default (.sng 0x7d4ccccd) (.dbl 0x8420000000000000)) = (0x8100000020000000, 0b10, 0) := by
  decide

theorem test_fmulDS_default :
    shown (floatMul Params.default (.dbl 0x7d4ccccccccccccd) (.sng 0x84200000)) = (0x8100000000000000, 0b10, 0) := by
  decide

theorem test_fmulD_default :
    shown (floatMul Params.default (.dbl 0x7d4ccccccccccccd) (.dbl 0x7d4ccccccccccccd)) = (0x7a23d70a3d70a3d7, 0b10, 0) ∧
    shown (floatMul Params.default (.dbl 0xff7fffffffffffff) (.dbl 0x8180000000000000)) = (0xffffffffffffffff, 0b10, 0) := by
  decide

theorem test_fdivS_default :
    shown (floatDiv Params.default (.sng 0x817fffff) (.sng 0x81000001)) = (0x817ffffd, 0b01, 0) ∧
    shown (floatDiv Params.default (.sng 0xff000000) (.sng 0x80000000)) = (0xff7fffff, 0b01, 1) := by
  decide

theorem test_fdivSD_default :
    shown (floatDiv Params.default (.sng 0x81000000) (.dbl 0x8240000000000000)) = (0x7f2aaaaaaaaaaaab, 0b10, 0) := by
  decide

theorem test_fdivDS_default :
    shown (floatDiv Params.default (.dbl 0x8100000000000000) (.sng 0x82400000)) = (0x7f2aaaaaaaaaaaab, 0b10, 0) := by
  decide

theorem test_fdivD_default :
    shown (floatDiv Params.default (.dbl 0x8100000000000000) (.dbl 0x8240000000000000)) = (0x7f2aaaaaaaaaaaab, 0b10, 0) ∧
    shown (floatDiv Params.default (.dbl 0xff7fffffffffffff) (.dbl 0x8000000000000000)) = (0xff7fffffffffffff, 0b10, 1) := by
  decide

/-! ### Reset, the host, the step -/

theorem test_read_before_valid :
    (match step { State.reset with host := [.read] } with
      | .fault .readBeforeValid => true
      | .next _ => false
      | .refused _ => false) = true := by
  decide

theorem test_contention :
    (match step (busy ⟨0x50, 7, 0⟩ [.contend ⟨0x50, 7, 0⟩ ⟨0x00, 1, 2⟩]) with
      | .refused .portContention => true
      | .refused (.notModelled _) => false
      | .fault _ => false
      | .next _ => false) = true := by
  decide

/-- Two commands of S9 in a row, each issued, awaited and read: `R` ends as the last one's answer, `10 + 5` in Single. -/
theorem test_sequence :
    (match Host.Core.run Sys2Proof.core 8
        { State.reset with host := [⟨0x81, 10, 0⟩, ⟨0x05, 0x84200000, 0x83200000⟩].flatMap hostScript } with
      | .next s => some (shown (show State from s).latch, (show State from s).host)
      | .fault _ => none
      | .refused _ => none) = some ((0x84700000, 0b01, 0b0000), []) := by
  decide

/-! ### Witnesses: for each statement with hypotheses, an input that meets all of them -/

theorem witness_ResetLatchIsBlank :
    ({ State.reset with host := [.read] } : State).latch.valid = false ∧
    ({ State.reset with host := [.read] } : State).host = .read :: [] := by
  decide

theorem witness_ResetAbandonsCommand : (busy ⟨0x50, 7, 0⟩ [.reset]).host = .reset :: [] := by
  decide

theorem witness_ReadHasNoSideEffect :
    (busy ⟨0x50, 7, 0⟩ [.read, .waitReady]).latch.valid = true ∧
    (busy ⟨0x50, 7, 0⟩ [.read, .waitReady]).host = .read :: [.waitReady] := by
  decide

theorem witness_IdleUnitAcceptsCommand :
    State.inProgress { State.reset with host := [.issue ⟨0x50, 7, 0⟩] } = none ∧
    State.host { State.reset with host := [.issue ⟨0x50, 7, 0⟩] } = .issue ⟨0x50, 7, 0⟩ :: [] := by
  decide

/-- With no input to come, with a wait, and with the next command presented early. -/
theorem witness_AcceptedCommandCompletes :
    (busy ⟨0x50, 7, 0⟩ []).inProgress = some ⟨0x50, 7, 0⟩ ∧ (busy ⟨0x50, 7, 0⟩ []).undisturbed = true ∧
    (busy ⟨0x50, 7, 0⟩ [.waitReady]).undisturbed = true ∧
    (busy ⟨0x50, 7, 0⟩ [.issue ⟨0x00, 1, 2⟩]).undisturbed = true := by
  decide

theorem witness_PortContentionIsRefused :
    (ready [.contend ⟨0x50, 7, 0⟩ ⟨0x00, 1, 2⟩]).host = .contend ⟨0x50, 7, 0⟩ ⟨0x00, 1, 2⟩ :: [] := by
  decide

/-- Both sides of the equivalence occur. -/
theorem witness_OnlyTheHostStopsTheUnit :
    State.stops { State.reset with host := [.read] } = true ∧ (ready [.read]).stops = false := by
  decide

theorem witness_StepRunsDecodedCommand :
    (busy ⟨0x50, 7, 9⟩ [.waitReady]).inProgress = some ⟨0x50, 7, 9⟩ ∧
    (busy ⟨0x50, 7, 9⟩ [.waitReady]).undisturbed = true ∧ decode ⟨0x50, 7, 9⟩ = .ok (.ineg 7) ∧
    decodeTableWord 8 0x50 = some (.ineg 0) := by
  decide

theorem witness_IllegalWordIsRefused :
    (busy ⟨0xB0, 7, 9⟩ []).inProgress = some ⟨0xB0, 7, 9⟩ ∧ (busy ⟨0xB0, 7, 9⟩ []).undisturbed = true ∧
    (0xB0 : CmdWord) ∉ commandWords ∧ (WellFormed.illegalClass 0xB0).isSome = true ∧
    (WellFormed.illegalClass 0xAF).isSome = true ∧ (WellFormed.illegalClass 0xA2).isSome = false := by
  decide

theorem witness_EncodeWritesDecodedTransaction :
    Transaction.wellFormed ⟨0xA1, 0xFFFFFFFF, 0x1FFFF⟩ = true ∧ Transaction.wellFormed ⟨0x0A, busA, busB⟩ = true := by
  decide

/-- Two transactions that differ in every unused bit. -/
theorem witness_UnusedBusBitsAreIgnored :
    (⟨0x84, 0x0000000084200000, 0⟩ : Transaction).cmd = (⟨0x84, 0xFFFFFFFF84200000, busB⟩ : Transaction).cmd ∧
    (0x0000000084200000#64).toNat % 2 ^ WellFormed.usedA 0x84 = (0xFFFFFFFF84200000#64).toNat % 2 ^ WellFormed.usedA 0x84 ∧
    (0#64).toNat % 2 ^ WellFormed.usedB 0x84 = busB.toNat % 2 ^ WellFormed.usedB 0x84 := by
  decide

/-- The four values at which the clauses of IADD and ISUB meet. -/
theorem witness_IntegerAddAnswer :
    answer 0x00 32767 0 = some (0x7FFF, 0b00, 0) ∧ answer 0x00 32767 1 = some (0x7FFF, 0b00, 1) ∧
    answer 0x00 0x8001 0xFFFF = some (0x8000, 0b00, 0) ∧ answer 0x00 0x8000 0xFFFF = some (0x8000, 0b00, 1) := by
  decide

theorem witness_IntegerSubtractAnswer :
    answer 0x10 32766 0xFFFF = some (0x7FFF, 0b00, 0) ∧ answer 0x10 32767 0xFFFF = some (0x7FFF, 0b00, 1) ∧
    answer 0x10 0x8001 1 = some (0x8000, 0b00, 0) ∧ answer 0x10 0x8000 1 = some (0x8000, 0b00, 1) := by
  decide

theorem witness_IntegerRemainderAnswer : (1 : IntBits) ≠ 0 ∧ (0xFFFF : IntBits) ≠ 0 := by
  decide

theorem witness_QuotientAndRemainderRecompose :
    (0xFFFF : IntBits) ≠ 0 ∧ ¬((0x8001 : IntBits).toInt = -32768 ∧ (0xFFFF : IntBits).toInt = -1) ∧
    ¬((0x8000 : IntBits).toInt = -32768 ∧ (1 : IntBits).toInt = -1) := by
  decide

/-- The largest mantissa and the smallest nonzero one of each format. -/
theorem witness_RenormalizerClosedForm :
    0xFFFFFFFF < 2 ^ Fmt.sng.W ∧ 0xFFFFFFFFFFFFFFFF < 2 ^ Fmt.dbl.W ∧ 1 < 2 ^ Fmt.sng.W ∧ (1 : Nat) ≠ 0 := by
  decide

/-- Its four branches: a zero mantissa; exponents 255 and 256, 1 and 0. -/
theorem witness_RenormalizerClosedForm_branches :
    shown (renorm .sng ⟨300, 0, false⟩) = (0, 0b01, 0) ∧
    shown (renorm .sng ⟨255, 0x80000000, false⟩) = (0xFF000000, 0b01, 0) ∧
    shown (renorm .sng ⟨256, 0x80000000, true⟩) = (0xFFFFFFFF, 0b01, 1) ∧
    shown (renorm .sng ⟨1, 0x80000000, false⟩) = (0x01000000, 0b01, 0) ∧
    shown (renorm .sng ⟨0, 0x80000000, false⟩) = (0, 0b01, 0) := by
  decide

theorem witness_RenormalizerRestoresUnpacked :
    (0x01000000#64).toNat < 2 ^ Fmt.sng.W ∧ isZero .sng 0x01000000 = false ∧
    (0xFFFFFFFFFFFFFFFF#64).toNat < 2 ^ Fmt.dbl.W ∧ isZero .dbl 0xFFFFFFFFFFFFFFFF = false := by
  decide

/-- A mantissa for each of the four cases of the guard byte. -/
theorem witness_GuardByteRoundsToNearestEven :
    0x8000007F % 256 < 0x80 ∧ (0x80000080 % 256 = 0x80 ∧ 0x80000080 / 256 % 2 = 0) ∧
    (0x80000180 % 256 = 0x80 ∧ 0x80000180 / 256 % 2 = 1) ∧ 0x80000081 % 256 > 0x80 := by
  decide

theorem witness_AdderZeroOperands :
    isZero .sng 0x00800000 = true ∧ isZero .sng 0x00FF1234 = true ∧ isZero .sng 0x01000000 = false := by
  decide

/-- One pair with a carry out of the working width, one without. -/
theorem witness_AdderSameSigns :
    isZero .sng 0x84200000 = false ∧ isZero .sng 0x83200000 = false ∧ sgn .sng 0x84200000 = sgn .sng 0x83200000 ∧
    expb .sng 0x83200000 ≤ expb .sng 0x84200000 ∧
    sig .sng 0x84200000 * 256 + sig .sng 0x83200000 * 256 / 2 ^ (132 - 131) < 2 ^ 32 ∧
    sig .sng 0x81400000 * 256 + sig .sng 0x81400000 * 256 / 2 ^ (129 - 129) ≥ 2 ^ 32 := by
  decide

/-- Opposite signs: a pair that loses bits, one that does not with the larger first, one with the smaller first. -/
theorem witness_AdderDifferentSigns :
    (isZero .sng 0x81000000 = false ∧ isZero .sng 0x78800001 = false ∧ sgn .sng 0x81000000 ≠ sgn .sng 0x78800001 ∧
      expb .sng 0x78800001 ≤ expb .sng 0x81000000 ∧ sig .sng 0x78800001 * 256 % 2 ^ 9 ≠ 0) ∧
    (sgn .sng 0x84200000 ≠ sgn .sng 0x83A00000 ∧ ¬(sig .sng 0x83A00000 * 256 % 2 ^ 1 ≠ 0) ∧
      sig .sng 0x83A00000 * 256 / 2 ^ 1 ≤ sig .sng 0x84200000 * 256) ∧
    (sgn .sng 0x81000000 ≠ sgn .sng 0x81C00000 ∧ expb .sng 0x81C00000 ≤ expb .sng 0x81000000 ∧
      ¬(sig .sng 0x81C00000 * 256 % 2 ^ 0 ≠ 0) ∧ sig .sng 0x81000000 * 256 < sig .sng 0x81C00000 * 256 / 2 ^ 0) := by
  decide

/-- Exponents 8 apart, the most the statement allows. -/
theorem witness_CloseOperandsIgnoreCorrection :
    expb .sng 0x89000000 ≤ expb .sng 0x81800001 + 8 ∧ expb .sng 0x81800001 ≤ expb .sng 0x89000000 + 8 := by
  decide

/-- Exponents 7 apart, the most the statement allows. -/
theorem witness_CloseOperandsAddExactly :
    isZero .sng 0x88000000 = false ∧ isZero .sng 0x81800001 = false ∧
    expb .sng 0x88000000 ≤ expb .sng 0x81800001 + 7 ∧ expb .sng 0x81800001 ≤ expb .sng 0x88000000 + 7 := by
  decide

theorem witness_SubtractSelfAndZero :
    (0x01000000 : SngBits).toNat / 2 ^ 24 ≠ 0 ∧ (0x00FFFFFF : SngBits).toNat / 2 ^ 24 = 0 ∧
    (0x0100000000000000 : DblBits).toNat / 2 ^ 56 ≠ 0 ∧ (0x00FFFFFFFFFFFFFF : DblBits).toNat / 2 ^ 56 = 0 := by
  decide

theorem witness_MultiplierZeroShortCircuit :
    (isZero .sng 0x00800000 = true ∨ isZero .sng 0xFF7FFFFF = true) ∧
    (isZero .dbl 0x8320000000000000 = true ∨ isZero .dbl 0x00FFFFFFFFFFFFFF = true) := by
  decide

/-- A product that reaches `2^(2W-1)` and one that does not. -/
theorem witness_ProductRangeShift :
    isZero .sng 0x817FFFFF = false ∧ isZero .sng 0x81000000 = false ∧
    sig .sng 0x817FFFFF * 256 * (sig .sng 0x817FFFFF * 256) ≥ 2 ^ (2 * 32 - 1) ∧
    sig .sng 0x81000000 * 256 * (sig .sng 0x81000000 * 256) < 2 ^ (2 * 32 - 1) := by
  decide

theorem witness_DefaultMultiplyByOne :
    (0xFF7FFFFF#64).toNat < 2 ^ Fmt.sng.W ∧ isZero .sng 0xFF7FFFFF = false ∧
    (0x0100000000000000#64).toNat < 2 ^ Fmt.dbl.W ∧ isZero .dbl 0x0100000000000000 = false := by
  decide

/-- A zero divisor under a positive dividend and under a negative (zero) one; a zero dividend. -/
theorem witness_DividerZeroOperands :
    (isZero .sng 0x00563412 = true ∧ sgn .sng 0x81000000 = false) ∧
    (isZero .sng 0 = true ∧ sgn .sng 0x00800000 = true) ∧
    (isZero .sng 0x83200000 = false ∧ isZero .sng 0x00800000 = true) := by
  decide

/-- Nonzero operands; the extreme normalized mantissas. -/
theorem witness_RestoringDivisionFindsQuotient :
    (isZero .sng 0x84700000 = false ∧ isZero .sng 0x83200000 = false) ∧
    Normalized .sng 0x80000000 ∧ Normalized .sng 0xFFFFFFFF ∧ Normalized .dbl 0x8000000000000000 := by
  decide

theorem witness_DefaultDivideBySelfAndOne :
    (0x7D4CCCCD#64).toNat < 2 ^ Fmt.sng.W ∧ isZero .sng 0x7D4CCCCD = false ∧
    (0xFFFFFFFFFFFFFFFF#64).toNat < 2 ^ Fmt.dbl.W ∧ isZero .dbl 0xFFFFFFFFFFFFFFFF = false := by
  decide

/-- Operands for each of the five clauses. -/
theorem witness_ComparatorProcedure :
    (isZero .sng 0x00FFFFFF = true ∧ isZero .sng 0x01800000 = false ∧ sgn .sng 0x01800000 = true) ∧
    (isZero .sng 0x01000000 = false ∧ isZero .sng 0x00FFFFFF = true) ∧
    (sgn .sng 0x01000000 ≠ sgn .sng 0x01800000) ∧
    (isZero .sng 0x81000001 = false ∧ sgn .sng 0x81000001 = false ∧ sgn .sng 0x81000000 = false) ∧
    (isZero .sng 0x81800000 = false ∧ sgn .sng 0x81800000 = true ∧ sgn .sng 0x82800000 = true) := by
  decide

/-- The values at which the clauses of F2I meet: 32767.4 and 32767.5, just short of -32768.5 and at it. -/
theorem witness_FloatToIntSigned :
    answer 0x84 0x8F7FFECD 0 = some (0x7FFF, 0b00, 0) ∧ answer 0x84 0x8F7FFF00 0 = some (0x7FFF, 0b00, 1) ∧
    answer 0x88 0x9080007FFFFFFFFF 0 = some (0x8000, 0b00, 0) ∧
    answer 0x88 0x9080008000000000 0 = some (0x8000, 0b00, 1) := by
  decide

/-- The values at which the clauses of F2IU meet: 65535.4 and 65535.5, just short of -32768.5 and at it. -/
theorem witness_FloatToIntUnsigned :
    answer 0x94 0x907FFF66 0 = some (0xFFFF, 0b00, 0) ∧ answer 0x94 0x907FFF80 0 = some (0x7FFF, 0b00, 1) ∧
    answer 0x98 0x9080007FFFFFFFFF 0 = some (0x8000, 0b00, 0) ∧
    answer 0x98 0x9080008000000000 0 = some (0x8000, 0b00, 1) := by
  decide

/-- Zero, the smallest positive Integer and the most negative one. -/
theorem witness_IntToFloatIsExact : (0 : IntBits) = 0 ∧ (1 : IntBits) ≠ 0 ∧ (0x8000 : IntBits) ≠ 0 := by
  decide

/-- The four branches of D2S. -/
theorem witness_DoubleToSingleRounds :
    answer 0x89 0x00FFFFFFFFFFFFFF 0 = some (0, 0b01, 0) ∧
    answer 0x89 0xFF7FFFFF7F000000 0 = some (0xFF7FFFFF, 0b01, 0) ∧
    answer 0x89 0xFF7FFFFF80000000 0 = some (0xFF7FFFFF, 0b01, 1) ∧
    answer 0x89 0x817FFFFF80000000 0 = some (0x82000000, 0b01, 0) := by
  decide

theorem witness_NarrowRestoresWidened :
    (0x01000000 : SngBits).toNat / 2 ^ 24 ≠ 0 ∧ (0xFFFFFFFF : SngBits).toNat / 2 ^ 24 ≠ 0 := by
  decide

/-- A state with a command in progress that meets the invariant, and the state its step answers. -/
theorem witness_StepKeepsLatchInvariant :
    (busy ⟨0x50, 0x8000, 0⟩ [.waitReady]).Inv ∧
    (match step (busy ⟨0x50, 0x8000, 0⟩ [.waitReady]) with
      | .next s => decide (s = State.answered (ready [.waitReady]) 0b00 0x7FFF true false false)
      | .fault _ => false
      | .refused _ => false) = true := by
  decide

theorem witness_CommandSequenceRunsInOrder :
    State.inProgress { State.reset with host := [⟨0xB0, 0, 0⟩, ⟨0x50, 7, 0⟩].flatMap hostScript } = none ∧
    State.host { State.reset with host := [⟨0xB0, 0, 0⟩, ⟨0x50, 7, 0⟩].flatMap hostScript } =
      [⟨0xB0, 0, 0⟩, ⟨0x50, 7, 0⟩].flatMap hostScript := by
  decide

end Sys2Proof.Tests
end

section
/-! Proofs about the latch and the step: what every command and every transaction completes with, and the statements
of the state's family that follow. -/

namespace Sys2Proof.Machine

/-! ### Sound answers: one lemma per shared operation -/

/-- What every legal command's answer satisfies: it is valid, is no refusal (R13) and meets the latch's invariant. -/
abbrev Latch.Sound (l : Latch) : Prop := l.Answer ∧ l.Inv

theorem sound_encInt (z : Int) (unsigned : Bool) : (encInt z unsigned).Sound :=
  ⟨answer_encInt z unsigned, inv_encInt z unsigned⟩

theorem sound_intDivide (a b : IntBits) : (intDivide a b).Sound := ⟨answer_intDivide a b, inv_intDivide a b⟩

theorem sound_intRemainder (a b : IntBits) : (intRemainder a b).Sound :=
  ⟨answer_intRemainder a b, inv_intRemainder a b⟩

theorem sound_compared (b : Bool) : (compared b).Sound := ⟨answer_compared b, inv_compared b⟩

theorem sound_floatGreater (x y : Operand) : (floatGreater x y).Sound := sound_compared _

theorem sound_floatEqual (x y : Operand) : (floatEqual x y).Sound := sound_compared _

theorem sound_floatAdd (p : Params) (x y : Operand) : (floatAdd p x y).Sound :=
  ⟨answer_fadd p _ _ _, inv_floatAdd p x y⟩

theorem sound_floatSub (p : Params) (x y : Operand) : (floatSub p x y).Sound :=
  ⟨answer_fadd p _ _ _, inv_floatSub p x y⟩

theorem sound_floatMul (p : Params) (x y : Operand) : (floatMul p x y).Sound :=
  ⟨answer_fmul p _ _ _, inv_fmul p _ _ _⟩

theorem sound_floatDiv (p : Params) (x y : Operand) : (floatDiv p x y).Sound :=
  ⟨answer_fdiv p _ _ _, inv_fdiv p _ _ _⟩

theorem sound_intToFloat (f : Fmt) (n : IntBits) : (intToFloat f n).Sound := ⟨answer_result _ _, inv_i2f f n⟩

theorem sound_floatToInt (f : Fmt) (x : Bus) (unsigned : Bool) : (floatToInt f x unsigned).Sound :=
  sound_encInt _ unsigned

theorem sound_singleToDouble (x : SngBits) : (singleToDouble x).Sound :=
  ⟨answer_singleToDouble x, inv_singleToDouble x⟩

theorem sound_doubleToSingle (x : DblBits) : (doubleToSingle x).Sound :=
  ⟨answer_doubleToSingle x, inv_doubleToSingle x⟩

theorem sound_renormCommand (f : Fmt) (man : Nat) (exp : BitVec 16) (neg : Bool) (h : man < 2 ^ f.W) :
    (renormCommand f man exp neg).Sound :=
  ⟨answer_renorm f _, inv_renorm f _ h⟩

/-! ### What a command and a transaction complete with -/

/-- R13: a command completes with one sound latch, the same in every state. -/
theorem exec_completes (i : Instr) : ∃ l : Latch, l.Sound ∧ ∀ s : State, exec i s = .next (s.complete l) := by
  cases i with
  | iadd a b => exact ⟨_, sound_encInt _ _, exec_iadd a b⟩
  | faddS a b => exact ⟨_, sound_floatAdd _ _ _, exec_faddS a b⟩
  | faddSD a b => exact ⟨_, sound_floatAdd _ _ _, exec_faddSD a b⟩
  | faddDS a b => exact ⟨_, sound_floatAdd _ _ _, exec_faddDS a b⟩
  | faddD a b => exact ⟨_, sound_floatAdd _ _ _, exec_faddD a b⟩
  | isub a b => exact ⟨_, sound_encInt _ _, exec_isub a b⟩
  | fsubS a b => exact ⟨_, sound_floatSub _ _ _, exec_fsubS a b⟩
  | fsubSD a b => exact ⟨_, sound_floatSub _ _ _, exec_fsubSD a b⟩
  | fsubDS a b => exact ⟨_, sound_floatSub _ _ _, exec_fsubDS a b⟩
  | fsubD a b => exact ⟨_, sound_floatSub _ _ _, exec_fsubD a b⟩
  | fmulS a b => exact ⟨_, sound_floatMul _ _ _, exec_fmulS a b⟩
  | fmulSD a b => exact ⟨_, sound_floatMul _ _ _, exec_fmulSD a b⟩
  | fmulDS a b => exact ⟨_, sound_floatMul _ _ _, exec_fmulDS a b⟩
  | fmulD a b => exact ⟨_, sound_floatMul _ _ _, exec_fmulD a b⟩
  | idiv a b => exact ⟨_, sound_intDivide _ _, exec_idiv a b⟩
  | fdivS a b => exact ⟨_, sound_floatDiv _ _ _, exec_fdivS a b⟩
  | fdivSD a b => exact ⟨_, sound_floatDiv _ _ _, exec_fdivSD a b⟩
  | fdivDS a b => exact ⟨_, sound_floatDiv _ _ _, exec_fdivDS a b⟩
  | fdivD a b => exact ⟨_, sound_floatDiv _ _ _, exec_fdivD a b⟩
  | imod a b => exact ⟨_, sound_intRemainder _ _, exec_imod a b⟩
  | ineg a => exact ⟨_, sound_encInt _ _, exec_ineg a⟩
  | igt a b => exact ⟨_, sound_compared _, exec_igt a b⟩
  | fgtIS a b => exact ⟨_, sound_floatGreater _ _, exec_fgtIS a b⟩
  | fgtID a b => exact ⟨_, sound_floatGreater _ _, exec_fgtID a b⟩
  | fgtSI a b => exact ⟨_, sound_floatGreater _ _, exec_fgtSI a b⟩
  | fgtS a b => exact ⟨_, sound_floatGreater _ _, exec_fgtS a b⟩
  | fgtSD a b => exact ⟨_, sound_floatGreater _ _, exec_fgtSD a b⟩
  | fgtDI a b => exact ⟨_, sound_floatGreater _ _, exec_fgtDI a b⟩
  | fgtDS a b => exact ⟨_, sound_floatGreater _ _, exec_fgtDS a b⟩
  | fgtD a b => exact ⟨_, sound_floatGreater _ _, exec_fgtD a b⟩
  | ieq a b => exact ⟨_, sound_compared _, exec_ieq a b⟩
  | feqIS a b => exact ⟨_, sound_floatEqual _ _, exec_feqIS a b⟩
  | feqID a b => exact ⟨_, sound_floatEqual _ _, exec_feqID a b⟩
  | feqSI a b => exact ⟨_, sound_floatEqual _ _, exec_feqSI a b⟩
  | feqS a b => exact ⟨_, sound_floatEqual _ _, exec_feqS a b⟩
  | feqSD a b => exact ⟨_, sound_floatEqual _ _, exec_feqSD a b⟩
  | feqDI a b => exact ⟨_, sound_floatEqual _ _, exec_feqDI a b⟩
  | feqDS a b => exact ⟨_, sound_floatEqual _ _, exec_feqDS a b⟩
  | feqD a b => exact ⟨_, sound_floatEqual _ _, exec_feqD a b⟩
  | i2fS a => exact ⟨_, sound_intToFloat _ _, exec_i2fS a⟩
  | i2fD a => exact ⟨_, sound_intToFloat _ _, exec_i2fD a⟩
  | f2iS a => exact ⟨_, sound_floatToInt _ _ _, exec_f2iS a⟩
  | f2iD a => exact ⟨_, sound_floatToInt _ _ _, exec_f2iD a⟩
  | s2d a => exact ⟨_, sound_singleToDouble _, exec_s2d a⟩
  | d2s a => exact ⟨_, sound_doubleToSingle _, exec_d2s a⟩
  | f2iuS a => exact ⟨_, sound_floatToInt _ _ _, exec_f2iuS a⟩
  | f2iuD a => exact ⟨_, sound_floatToInt _ _ _, exec_f2iuD a⟩
  | rnrmS man exp neg => exact ⟨_, sound_renormCommand _ _ _ _ man.isLt, exec_rnrmS man exp neg⟩
  | rnrmD man exp neg => exact ⟨_, sound_renormCommand _ _ _ _ man.isLt, exec_rnrmD man exp neg⟩

/-- The same of a transaction, its word legal or not: an illegal one completes with the latch of `refuse` (R47). -/
theorem runCommand_completes (t : Transaction) :
    ∃ l : Latch, l.valid = true ∧ l.Inv ∧ ∀ s : State, s.runCommand t = .next (s.complete l) := by
  cases h : decode t with
  | error e => exact ⟨refuse, refuse_valid, inv_refuse, fun _ => runCommand_error h⟩
  | ok i =>
    obtain ⟨l, ⟨⟨hvalid, -⟩, hinv⟩, hexec⟩ := exec_completes i
    exact ⟨l, hvalid, hinv, fun s => (runCommand_ok h).trans (hexec s)⟩

/-! ### The parts of a step -/

theorem latchReset_inv : Latch.reset.Inv := by decide

/-- A host read that comes first is what the step does (R34, R18). -/
theorem step_read {s : State} {rest : List HostInput} (h : s.host = .read :: rest) : step s = s.hostRead rest := by
  simp only [step, h]

theorem hostRead_of_not_valid {s : State} (rest : List HostInput) (h : s.latch.valid = false) :
    s.hostRead rest = .fault .readBeforeValid := by
  simp [State.hostRead, h]

theorem withAccepted_undisturbed (s : State) (t : Transaction) : (s.withAccepted t).undisturbed = true := rfl

/-- A command in progress that decodes, undisturbed, is executed by the next step (R11, R35). -/
theorem step_of_decode {s : State} {c : Transaction} {i : Instr} (hc : s.inProgress = some c)
    (hu : s.undisturbed = true) (hd : decode c = .ok i) : step s = exec i s :=
  (step_inProgress hc hu).trans (runCommand_ok hd)

theorem decode_of_decodeTableWord {nbits w : Nat} {i : Instr} (h : decodeTableWord nbits w = some i) :
    decode (Transaction.ofNat (w % 2 ^ nbits)) = .ok i := by
  unfold decodeTableWord at h
  cases hd : decode (Transaction.ofNat (w % 2 ^ nbits)) with
  | error e => simp [hd, Except.toOption] at h
  | ok j => simpa [hd, Except.toOption] using h

/-! ### The statements -/

/-- Settles O58: a step resets the latch, completes a command with a latch that meets the invariant, or leaves the
latch as it is. -/
theorem stepKeepsLatchInvariant : Obligations.StepKeepsLatchInvariant := by
  intro s s' hinv hstep
  obtain ⟨_, -, rfl⟩ | ⟨_, -, -, rfl⟩ | ⟨c, -, -, hrun⟩ | ⟨_, _, -, -, rfl⟩ | ⟨_, -, -, rfl⟩ | ⟨-, -, rfl⟩ :=
    step_cases hstep
  · exact latchReset_inv -- reset
  · exact hinv -- read
  · -- completion
    obtain ⟨l, -, hl, hcomplete⟩ := runCommand_completes c
    cases (hcomplete s).symm.trans hrun
    exact hl
  · exact hinv -- acceptance
  · exact hinv -- wait
  · exact hinv -- idle

/-- Settles O55: completing writes the latch and clears the command in progress, nothing else. -/
theorem commandWritesLatchAndNothingElse : Obligations.CommandWritesLatchAndNothingElse := by
  constructor
  · intro i
    obtain ⟨l, ⟨⟨hvalid, hill⟩, -⟩, hexec⟩ := exec_completes i
    exact ⟨l, hvalid, hill, hexec⟩
  · intro t
    obtain ⟨l, hvalid, -, hrun⟩ := runCommand_completes t
    exact ⟨l, hvalid, hrun⟩

/-- Settles O1: the reset values are those of the definition, and the read is a step of its own. -/
theorem resetLatchIsBlank : Obligations.ResetLatchIsBlank :=
  ⟨rfl, rfl, fun _ rest hvalid hhost => (step_read hhost).trans (hostRead_of_not_valid rest hvalid)⟩

/-- Settles O8: a placed word stands in progress in an undisturbed unit, so both parts are one step lemma. -/
theorem stepRunsDecodedCommand : Obligations.StepRunsDecodedCommand :=
  ⟨fun _ _ _ => step_of_decode,
    fun s _ _ _ hw => step_of_decode (withAccepted_inProgress s _) (withAccepted_undisturbed s _)
      (decode_of_decodeTableWord hw)⟩

/-- Settles O59: the latch is blank, so no flag and no float value has to be justified. -/
theorem resetMeetsLatchInvariant : Obligations.ResetMeetsLatchInvariant := latchReset_inv

end Sys2Proof.Machine
end

section
/-! Proofs of the memory family's statements: the read of the latch and the runs of a host's transactions, the
divider's zeros, and the exact sums of operands whose exponents are close. -/

namespace Sys2Proof.Machine

/-! ### The steps of an idle unit -/

theorem hostRead_of_valid {s : State} (rest : List HostInput) (h : s.latch.valid = true) :
    s.hostRead rest = .next { s with host := rest } := by
  simp [State.hostRead, h]

theorem step_issue_of_idle {s : State} {t : Transaction} {rest : List HostInput} (hidle : s.inProgress = none)
    (hhost : s.host = .issue t :: rest) : step s = .next (s.accept t rest) := by
  simp [step, hhost, hidle]

theorem step_waitReady_of_idle {s : State} {rest : List HostInput} (hidle : s.inProgress = none)
    (hhost : s.host = .waitReady :: rest) : step s = .next { s with host := rest } := by
  simp [step, hhost, hidle]

/-- Settles O3: a read of a valid latch takes one input from the host and leaves the other fields. -/
theorem readHasNoSideEffect : Obligations.ReadHasNoSideEffect :=
  fun _ rest hvalid hhost => (step_read hhost).trans (hostRead_of_valid rest hvalid)

/-! ### A host that issues, waits and reads -/

/-- Four steps take an idle unit through one transaction of the host: acceptance, completion, the end of the wait,
the read. The latch is then the transaction's own answer. -/
theorem run_hostScript {s : State} {t : Transaction} {rest : List HostInput} (k : Nat) (hidle : s.inProgress = none)
    (hhost : s.host = hostScript t ++ rest) :
    ∃ l : Latch, AnsweredBy t l ∧
      Host.Core.run core (k + 4) s = Host.Core.run core k { latch := l, inProgress := none, host := rest } := by
  obtain ⟨l, hvalid, -, hanswer⟩ := runCommand_completes t
  have haccept : step s = .next (s.accept t (.waitReady :: .read :: rest)) := step_issue_of_idle hidle hhost
  have hcomplete : step (s.accept t (.waitReady :: .read :: rest)) =
      .next { latch := l, inProgress := none, host := .waitReady :: .read :: rest } :=
    (step_inProgress rfl rfl).trans (hanswer _)
  have hwait : step { latch := l, inProgress := none, host := .waitReady :: .read :: rest } =
      .next { latch := l, inProgress := none, host := .read :: rest } := step_waitReady_of_idle rfl rfl
  have hread : step { latch := l, inProgress := none, host := .read :: rest } =
      .next { latch := l, inProgress := none, host := rest } := readHasNoSideEffect _ _ hvalid rfl
  exact ⟨l, hanswer, by rw [run_succ _ haccept, run_succ _ hcomplete, run_succ _ hwait, run_succ _ hread]⟩

/-- Settles O60, by induction on the list: the first transaction leaves an idle unit with the others still to come. -/
theorem commandSequenceRunsInOrder : Obligations.CommandSequenceRunsInOrder := by
  intro ts
  induction ts with
  | nil => exact fun s hidle hhost => ⟨s, rfl, hhost, hidle, fun _ => rfl, by simp⟩
  | cons t ts ih =>
    intro s hidle hhost
    obtain ⟨l, hanswer, hrun⟩ := run_hostScript (4 * ts.length) hidle hhost
    obtain ⟨s', hrest, hhost', hidle', hempty, hlast⟩ := ih { latch := l, inProgress := none, host := _ } rfl rfl
    refine ⟨s', hrun.trans hrest, hhost', hidle', by simp, fun u hu => ?_⟩
    rcases ts.eq_nil_or_concat with rfl | ⟨init, v, rfl⟩
    · obtain rfl : t = u := by simpa using hu
      exact hempty rfl ▸ hanswer
    · exact hlast u (by simpa [List.getLast?_cons] using hu)

/-! ### The divider's zeros -/

theorem expb_maxMag (f : Fmt) (neg : Bool) : expb f (maxMag f neg) = 255 := by
  rw [maxMag_eq_pack, expb_pack f _ _ _ (by decide)]

theorem frac_maxMag (f : Fmt) (neg : Bool) : frac f (maxMag f neg) = 2 ^ (f.M - 1) - 1 := by
  rw [maxMag_eq_pack, frac_pack f _ _ _ (by decide)]
  cases f <;> decide

theorem sgn_maxMag (f : Fmt) (neg : Bool) : sgn f (maxMag f neg) = neg := by
  rw [maxMag_eq_pack, sgn_pack f _ _ _ (by decide)]

/-- R111: the divisor is tested before the dividend is looked at. -/
theorem fdiv_of_zero_divisor (p : Params) {f : Fmt} (a : Bus) {b : Bus} (hb : isZero f b = true) :
    fdiv p f a b = signalDivisionByZero f.tag (maxMag f (sgn f a)) := by
  rw [fdiv, if_pos hb]

theorem fdiv_of_zero_dividend (p : Params) {f : Fmt} {a b : Bus} (hb : isZero f b = false)
    (ha : isZero f a = true) : fdiv p f a b = result f.tag (zero f) := by
  simp [fdiv, hb, ha]

/-- Settles O42: the constants are packed values with known fields, and the two tests on zeros are `fdiv`'s first. -/
theorem dividerZeroOperands : Obligations.DividerZeroOperands := by
  refine ⟨rfl, rfl, rfl, rfl, fun f neg => ⟨expb_maxMag f neg, frac_maxMag f neg, sgn_maxMag f neg⟩,
    fun p f a b => ⟨fun hb ha => ?_, fun hb ha => ?_, fun hb ha => ?_⟩⟩
  · rw [fdiv_of_zero_divisor p a hb, ha]; rfl
  · rw [fdiv_of_zero_divisor p a hb, ha]; rfl
  · rw [fdiv_of_zero_dividend p hb ha]; rfl

/-! ### Exact values of triples -/

/-- Unpacking a nonzero value keeps the number it stands for (R27 to R29). -/
theorem den_val {f : Fmt} {x : Bus} (h : isZero f x = false) : (den f x).val f = val f x := by
  have hman : ((den f x).man : ℚ) / 256 = sig f x := by rw [den_man]; push_cast; ring
  simp [Triple.val, val, h, hman]

/-- A right shift by `d` places that loses nothing, with the exponent raised by `d`, keeps the value (R28). -/
theorem val_shiftRight (f : Fmt) (e : Int) (m d : Nat) (neg : Bool) (h : 2 ^ d ∣ m) :
    (Triple.mk (e + d) (m / 2 ^ d) neg).val f = (Triple.mk e m neg).val f := by
  obtain ⟨q, rfl⟩ := h
  have hexp : (2 : ℚ) ^ (e + d - f.bias) = 2 ^ (e - f.bias) * 2 ^ d := by
    rw [add_sub_right_comm, zpow_add₀ two_ne_zero, zpow_natCast]
  simp only [Triple.val, Nat.mul_div_cancel_left q (Nat.two_pow_pos d), hexp]
  push_cast
  ring

/-- The sum that two aligned magnitudes stand for. -/
def Aligned.val (f : Fmt) (al : Aligned) : ℚ :=
  (Triple.mk al.e al.mh al.sh).val f + (Triple.mk al.e al.ml al.sl).val f

/-- R94 is exact when the carry shift drops a bit 0. -/
theorem addMagnitudes_val (f : Fmt) (al : Aligned) (hsign : al.sh = al.sl) (heven : 2 ∣ al.mh + al.ml) :
    (addMagnitudes f al).val f = al.val f := by
  have hsum : (Triple.mk al.e (al.mh + al.ml) al.sh).val f = al.val f := by
    simp only [Triple.val, Aligned.val, ← hsign]
    push_cast
    ring
  rw [← hsum]
  simp only [addMagnitudes, Nat.shiftRight_eq_div_pow]
  split
  · exact val_shiftRight f al.e (al.mh + al.ml) 1 al.sh heven
  · rfl

theorem signFactor_not (s : Bool) : signFactor (!s) = -signFactor s := by cases s <;> simp [signFactor]

theorem val_sub (f : Fmt) (e : Int) {m n : Nat} (neg : Bool) (h : n ≤ m) :
    (Triple.mk e (m - n) neg).val f = (Triple.mk e m neg).val f + (Triple.mk e n (!neg)).val f := by
  simp only [Triple.val, signFactor_not, Nat.cast_sub h]
  ring

/-- The difference of R95 is exact before the correction. -/
theorem subDifference_val (f : Fmt) (al : Aligned) (hsign : al.sh ≠ al.sl) :
    (subDifference al).val f = al.val f := by
  unfold subDifference
  split
  · next h => rw [val_sub f al.e al.sl h.le, ← Bool.eq_not.2 hsign, add_comm, Aligned.val]
  · next h => rw [val_sub f al.e al.sh (not_lt.1 h), ← Bool.eq_not.2 hsign.symm, Aligned.val]

/-- The sum before rounding is what the aligned operands stand for, when alignment loses nothing and a carry shift
would lose nothing either. `SUBQ` has no part in it. -/
theorem addTriple_val (p : Params) (f : Fmt) (x y : Triple) (hlost : (align f x y).lost = false)
    (heven : 2 ∣ (align f x y).mh + (align f x y).ml) : (addTriple p f x y).val f = (align f x y).val f := by
  simp only [addTriple]
  split
  · next hsign => exact addMagnitudes_val f _ hsign heven
  · next hsign =>
    simp only [subMagnitudes, hlost, Bool.false_eq_true, if_false]
    exact subDifference_val f _ hsign

/-! ### The alignment of close operands -/

/-- Alignment keeps the sum when the shift loses nothing (R93). -/
theorem alignTo_val (f : Fmt) (hi lo : Triple) (hn : Normalized f lo.man) (hle : lo.exp ≤ hi.exp)
    (hdvd : 2 ^ (hi.exp - lo.exp).toNat ∣ lo.man) : (alignTo f hi lo).val f = hi.val f + lo.val f := by
  have hexp : hi.exp = lo.exp + (hi.exp - lo.exp).toNat := by omega
  have hlo := val_shiftRight f lo.exp lo.man _ lo.neg hdvd
  rw [← hexp] at hlo
  rw [alignTo_eq f hi lo hn, Aligned.val, hlo]

/-- Of two operands at most 7 apart, alignment leaves even magnitudes: of the 8 guard bits at least one stays. -/
theorem even_alignTo_den (f : Fmt) (a b : Bus) (h : expb f a ≤ expb f b + 7) :
    2 ∣ (alignTo f (den f a) (den f b)).mh + (alignTo f (den f a) (den f b)).ml := by
  have hd : ((den f a).exp - (den f b).exp).toNat ≤ 7 := by simp only [den_exp]; omega
  have hhi : 2 ∣ (den f a).man := Nat.dvd_of_mod_eq_zero (den_mod_two_pow f a 1 (by decide))
  have hlo : 2 ∣ (den f b).man / 2 ^ ((den f a).exp - (den f b).exp).toNat := by
    refine Nat.dvd_div_of_mul_dvd ?_
    rw [← pow_succ]
    exact Nat.dvd_of_mod_eq_zero (den_mod_two_pow f b _ (by omega))
  rw [alignTo_eq f _ _ (den_normalized f b)]
  exact dvd_add hhi hlo

theorem alignTo_den_val (f : Fmt) (a b : Bus) (hle : expb f b ≤ expb f a) (h : expb f a ≤ expb f b + 7) :
    (alignTo f (den f a) (den f b)).val f = (den f a).val f + (den f b).val f :=
  alignTo_val f _ _ (den_normalized f b) (by simpa using hle)
    (Nat.dvd_of_mod_eq_zero (den_mod_two_pow f b _ (by simp only [den_exp]; omega)))

/-- R93 on operands at most 7 apart, whichever is the larger: the sum is kept, and the magnitudes' sum is even. -/
theorem align_den_close (f : Fmt) (a b : Bus) (h1 : expb f a ≤ expb f b + 7) (h2 : expb f b ≤ expb f a + 7) :
    (align f (den f a) (den f b)).val f = (den f a).val f + (den f b).val f ∧
      2 ∣ (align f (den f a) (den f b)).mh + (align f (den f a) (den f b)).ml := by
  unfold align
  split
  · next h => exact ⟨alignTo_den_val f a b (by simpa using h) h1, even_alignTo_den f a b h1⟩
  · next h =>
    have hlt : expb f a < expb f b := by simpa using h
    exact ⟨(alignTo_den_val f b a hlt.le h2).trans (add_comm _ _), even_alignTo_den f b a h2⟩

/-- Settles O33: neither alignment nor a carry shift loses a bit, so `SUBQ` is not applied and every stage keeps the
sum of the operands' values. -/
theorem closeOperandsAddExactly : Obligations.CloseOperandsAddExactly := by
  intro p f a b ha hb h1 h2
  obtain ⟨hval, heven⟩ := align_den_close f a b h1 h2
  have hlost := align_lost_close f a b (by omega) (by omega)
  refine ⟨by simp [fadd, ha, hb], ?_⟩
  calc (addTriple p f (den f a) (den f b)).val f
      = (align f (den f a) (den f b)).val f := addTriple_val p f _ _ hlost heven
    _ = (den f a).val f + (den f b).val f := hval
    _ = val f a + val f b := by rw [den_val ha, den_val hb]

end Sys2Proof.Machine
end

section
/-! Proofs of the encoding family's statements: what an operand's bus gives back, the words of the table against the
classes of R47, and the form of a transaction on which decoding and encoding agree. -/

namespace Sys2Proof

open Machine

/-! ### Operands on their buses -/

theorem extractLsb'_onBus {n : Nat} (hn : n ≤ 64) (x : BitVec n) : (onBus x).extractLsb' 0 n = x := by
  rw [onBus, BitVec.extractLsb'_setWidth_of_le (by omega), BitVec.extractLsb'_eq_self]

@[simp] theorem busInt_onBus (x : IntBits) : busInt (onBus x) = x := extractLsb'_onBus (by decide) x

@[simp] theorem busSng_onBus (x : SngBits) : busSng (onBus x) = x := extractLsb'_onBus (by decide) x

@[simp] theorem busDbl_onBus (x : DblBits) : busDbl (onBus x) = x := BitVec.setWidth_eq x

@[simp] theorem busExp_rnrmBusB (exp : BitVec 16) (neg : Bool) : busExp (rnrmBusB exp neg) = exp := by
  rw [busExp, rnrmBusB, onBus, BitVec.extractLsb'_setWidth_of_le (by decide)]
  exact BitVec.extractLsb'_append_eq_right

@[simp] theorem busNeg_rnrmBusB (exp : BitVec 16) (neg : Bool) : busNeg (rnrmBusB exp neg) = neg := by
  rw [busNeg, rnrmBusB, onBus, BitVec.getLsbD_setWidth, BitVec.getLsbD_append]
  simp

/-- Settles O11: the fields of an encoded word name its command, and each operand is read back off its bus. -/
theorem decodeReadsEncodedCommand : Obligations.DecodeReadsEncodedCommand := by
  intro i
  cases i <;> exact (decode_of_fields _ _ rfl rfl rfl).trans (by simp [Instr.ofFields])

/-! ### The words of R44 and the classes of R47 -/

/-- The class of R47 that an answer of the decoder rejects its word by, `none` for a command. -/
def rejection : Except IllegalWord Instr → Option IllegalWord
  | .ok _ => none
  | .error c => some c

theorem rejection_eq_some_iff {r : Except IllegalWord Instr} {c : IllegalWord} :
    rejection r = some c ↔ r = .error c := by
  cases r <;> simp [rejection]

theorem rejection_ofFields_ignores_buses (op : Op) (ta tb : Tag) (a b : Bus) :
    rejection (Instr.ofFields op ta tb a b) = rejection (Instr.ofFields op ta tb 0 0) := by
  cases op <;> cases ta <;> cases tb <;> rfl

theorem rejection_decode_ignores_buses (t : Transaction) :
    rejection (decode t) = rejection (decode ⟨t.cmd, 0, 0⟩) := by
  unfold decode
  rcases opOf t.cmd.opField with _ | op
  · rfl
  rcases tagOf t.cmd.taField with _ | ta
  · rfl
  rcases tagOf t.cmd.tbField with _ | tb
  · rfl
  · exact rejection_ofFields_ignores_buses op ta tb t.a t.b

/-- R47 against R44, for each of the 256 words. -/
theorem rejection_decode_zero_buses :
    ∀ w : CmdWord, rejection (decode ⟨w, 0, 0⟩) = WellFormed.illegalClass w := by
  decide

theorem rejection_decode (t : Transaction) : rejection (decode t) = WellFormed.illegalClass t.cmd :=
  (rejection_decode_ignores_buses t).trans (rejection_decode_zero_buses t.cmd)

/-- Settles O10: the buses have no part in a rejection, so it is a fact about the 256 words. -/
theorem decoderRejectsByClass : Obligations.DecoderRejectsByClass := by
  intro t c
  rw [← rejection_eq_some_iff, rejection_decode]

/-- The table of R44 holds the words that the prose of R47 leaves legal, for each of the 256 words. -/
theorem mem_commandWords_iff :
    ∀ w : CmdWord, w ∈ commandWords ↔ (WellFormed.illegalClass w).isNone = true := by
  decide

theorem not_mem_commandWords_iff (w : CmdWord) :
    w ∉ commandWords ↔ (WellFormed.illegalClass w).isSome = true := by
  simp [mem_commandWords_iff, Option.isSome_iff_ne_none]

/-- Settles O9: a word outside the table has a class, by which the decoder rejects it. -/
theorem illegalWordIsRefused : Obligations.IllegalWordIsRefused := by
  refine ⟨fun s t hprogress hundisturbed hword => ?_, not_mem_commandWords_iff, rfl, rfl⟩
  obtain ⟨c, hclass⟩ := Option.isSome_iff_exists.1 ((not_mem_commandWords_iff t.cmd).1 hword)
  rw [step_inProgress hprogress hundisturbed, runCommand_error ((decoderRejectsByClass t c).2 hclass),
    complete_refuse]

/-! ### The bits a command uses -/

/-- The bus with 0 on every bit but its low `n`. -/
def lowBits (n : Nat) (x : Bus) : Bus := onBus (x.extractLsb' 0 n)

@[simp] theorem lowBits_toNat (n : Nat) (x : Bus) : (lowBits n x).toNat = x.toNat % 2 ^ n := by
  have hlt : x.toNat % 2 ^ n < 2 ^ 64 := (Nat.mod_le _ _).trans_lt x.isLt
  simpa [lowBits, onBus] using Nat.mod_eq_of_lt hlt

theorem lowBits_congr {n : Nat} {x y : Bus} (h : x.toNat % 2 ^ n = y.toNat % 2 ^ n) : lowBits n x = lowBits n y :=
  BitVec.eq_of_toNat_eq (by simpa using h)

theorem lowBits_of_lt {n : Nat} {x : Bus} (h : x.toNat < 2 ^ n) : lowBits n x = x :=
  BitVec.eq_of_toNat_eq (by simpa using Nat.mod_eq_of_lt h)

theorem lowBits_zero (x : Bus) : lowBits 0 x = 0 := BitVec.eq_of_toNat_eq (by simp [Nat.mod_one])

theorem onBus_busInt (x : Bus) : onBus (busInt x) = lowBits 16 x := rfl

theorem onBus_busSng (x : Bus) : onBus (busSng x) = lowBits 32 x := rfl

theorem onBus_busDbl (x : Bus) : onBus (busDbl x) = lowBits 64 x :=
  (BitVec.setWidth_eq x).trans (lowBits_of_lt x.isLt).symm

/-- RNRM uses 17 bits of bus `B`: the exponent and, above it, the sign (R85). -/
theorem rnrmBusB_busExp_busNeg (x : Bus) : rnrmBusB (busExp x) (busNeg x) = lowBits 17 x := by
  have hneg : BitVec.ofBool (busNeg x) = x.extractLsb' 16 1 := by
    ext k hk
    simp [busNeg, show k = 0 by omega]
  rw [rnrmBusB, hneg]
  exact congrArg onBus (BitVec.extractLsb'_append_extractLsb'_eq_extractLsb' rfl)

open WellFormed

/-- The transaction with 0 on every bus bit that its word does not use (R43, R85). -/
def Transaction.masked (t : Transaction) : Transaction :=
  ⟨t.cmd, lowBits (usedA t.cmd) t.a, lowBits (usedB t.cmd) t.b⟩

theorem Transaction.wellFormed_iff {t : Transaction} :
    t.wellFormed = true ↔ t.legal = true ∧ t.a.toNat < 2 ^ usedA t.cmd ∧ t.b.toNat < 2 ^ usedB t.cmd := by
  simp [wellFormed, canonicalA, canonicalB, and_assoc]

theorem Transaction.masked_of_lt {t : Transaction} (ha : t.a.toNat < 2 ^ usedA t.cmd)
    (hb : t.b.toNat < 2 ^ usedB t.cmd) : t.masked = t := by
  rw [masked, lowBits_of_lt ha, lowBits_of_lt hb]

/-- Each command of R44 keeps of its buses the bits that its word uses, in their places. -/
theorem decode_of_mem_commandWords {w : CmdWord} (hw : w ∈ commandWords) (a b : Bus) :
    ∃ i, decode ⟨w, a, b⟩ = .ok i ∧ encode i = (⟨w, a, b⟩ : Transaction).masked := by
  fin_cases hw
  all_goals
    refine ⟨_, (decode_of_fields a b rfl rfl rfl).trans rfl, ?_⟩
    simp [encode, Transaction.masked, usedA, usedB, tagBits, opCode, taCode, tbCode, onBus_busInt, onBus_busSng,
      onBus_busDbl, rnrmBusB_busExp_busNeg, lowBits_zero]

theorem decode_of_legal {t : Transaction} (h : t.legal = true) : ∃ i, decode t = .ok i ∧ encode i = t.masked :=
  decode_of_mem_commandWords ((mem_commandWords_iff t.cmd).2 h) t.a t.b

/-- Settles O12: what a transaction decodes to is encoded as its masked form, which a well-formed one is. -/
theorem encodeWritesDecodedTransaction : Obligations.EncodeWritesDecodedTransaction := by
  intro t h
  obtain ⟨hlegal, ha, hb⟩ := Transaction.wellFormed_iff.1 h
  obtain ⟨i, hdecode, hencode⟩ := decode_of_legal hlegal
  exact ⟨i, hdecode, hencode.trans (Transaction.masked_of_lt ha hb)⟩

/-- The bits a word does not use have no part in decoding: the masked form is an encoding of the command, and an illegal
word is rejected whatever is on the buses. -/
theorem decode_masked (t : Transaction) : decode t.masked = decode t := by
  cases hclass : illegalClass t.cmd with
  | none =>
    obtain ⟨i, hdecode, hencode⟩ := decode_of_legal (t := t) (by simp [Transaction.legal, hclass])
    rw [← hencode, decodeReadsEncodedCommand i, hdecode]
  | some c => rw [(decoderRejectsByClass t c).2 hclass, (decoderRejectsByClass t.masked c).2 hclass]

/-- Settles O13: the two transactions have the same masked form. -/
theorem unusedBusBitsAreIgnored : Obligations.UnusedBusBitsAreIgnored := by
  intro t u hcmd ha hb
  have hmasked : t.masked = u.masked := by
    simp only [Transaction.masked, ← hcmd, lowBits_congr ha, lowBits_congr hb]
  rw [← decode_masked t, hmasked, decode_masked u]

/-- Settles O14: each word is evaluated. -/
theorem writtenOutWordsDecode : Obligations.WrittenOutWordsDecode := ⟨rfl, rfl, rfl, rfl, rfl, rfl, rfl, rfl⟩

end Sys2Proof
end

section
/-! Proofs of the 16-bit integer family's statements: the answers of the signed range check, division truncated toward
zero, and an Integer as its sign, its top bits `[14:8]` and its low byte. -/

namespace Sys2Proof.Machine

/-! ### Addition, subtraction and negation -/

/-- R61: the unit after a signed integer result. -/
theorem complete_encInt_signed (s : State) (z : Int) :
    s.complete (encInt z false) =
      if z > 32767 then s.answered 0b00 0x7FFF true false false
      else if z < -32768 then s.answered 0b00 0x8000 true false false
      else s.answered 0b00 (u16 z) false false false := by
  rw [encInt, apply_ite s.complete, apply_ite s.complete]
  rfl

theorem u16_toInt (x : IntBits) : u16 x.toInt = x.setWidth 64 := by rw [u16, onBus, BitVec.ofInt_toInt]

theorem complete_encInt_of_fits (s : State) (x : IntBits) :
    s.complete (encInt x.toInt false) = s.answered 0b00 (u16 x.toInt) false false false := by
  obtain ⟨hlow, hhigh⟩ := int_bounds x
  rw [complete_encInt_signed, if_neg (by omega), if_neg (by omega)]

/-- The bit condition of R62 is signed overflow of the addition. -/
theorem addOverflows_iff (a b : IntBits) :
    addOverflows a b = true ↔ a.toInt + b.toInt > 32767 ∨ a.toInt + b.toInt < -32768 := by
  have hlib : addOverflows a b = a.saddOverflow b := (BitVec.saddOverflow_eq a b).symm
  simp only [hlib, BitVec.saddOverflow, Bool.or_eq_true, decide_eq_true_eq]
  omega

/-- The bit condition of R63 is signed overflow of the subtraction. -/
theorem subOverflows_iff (a b : IntBits) :
    subOverflows a b = true ↔ a.toInt - b.toInt > 32767 ∨ a.toInt - b.toInt < -32768 := by
  have hlib : subOverflows a b = a.ssubOverflow b := by
    rw [BitVec.ssubOverflow_eq, subOverflows]
    cases a.msb <;> cases b.msb <;> simp
  simp only [hlib, BitVec.ssubOverflow, Bool.or_eq_true, decide_eq_true_eq]
  omega

/-- Settles O15: the range check on the exact sum, which the wrapped sum is when it fits. -/
theorem integerAddAnswer : Obligations.IntegerAddAnswer := by
  intro A B s a b z
  refine ⟨(decode_of_fields A B rfl rfl rfl).trans rfl, ?_, (addOverflows_iff a b).symm⟩
  rw [exec_iadd, complete_encInt_signed, u16_add]

/-- Settles O16: the range check on the exact difference; adding the complement and 1 is subtracting. -/
theorem integerSubtractAnswer : Obligations.IntegerSubtractAnswer := by
  intro A B s a b z
  have hcomplement : a + ~~~b + 1 = a - b := by rw [BitVec.sub_eq_add_neg, BitVec.neg_eq_not_add, add_assoc]; rfl
  refine ⟨(decode_of_fields A B rfl rfl rfl).trans rfl, ?_, (subOverflows_iff a b).symm⟩
  rw [exec_isub, complete_encInt_signed, u16_sub, hcomplement]

theorem toInt_eq_min_iff (a : IntBits) : a.toInt = -32768 ↔ a = 0x8000 := BitVec.toInt_inj (y := 0x8000)

theorem toInt_eq_neg_one_iff (b : IntBits) : b.toInt = -1 ↔ b = -1 := BitVec.toInt_inj (y := -1)

/-- Settles O17: a negation is never below the range, and above it only for the least Integer. -/
theorem integerNegateAnswer : Obligations.IntegerNegateAnswer := by
  intro A B s a
  refine ⟨(decode_of_fields A B rfl rfl rfl).trans rfl, ?_⟩
  obtain ⟨hlow, hhigh⟩ := int_bounds a
  have habove : -a.toInt > 32767 ↔ a = 0x8000 := by rw [← toInt_eq_min_iff]; omega
  have hnotbelow : ¬(-a.toInt < -32768) := by omega
  rw [exec_ineg, complete_encInt_signed, u16_neg, if_neg hnotbelow]
  simp only [habove]

/-! ### Division -/

/-- R65, R66: the unit after a zero divisor. -/
theorem complete_intDivideByZero (s : State) (a : IntBits) :
    s.complete (intDivideByZero a) =
      if a.toInt < 0 then s.answered 0b01 0xFFFFFFFF false true false
      else s.answered 0b01 0xFF7FFFFF false true false := by
  rw [intDivideByZero_eq]
  split <;> rfl

/-- All quotients but one are those of the signed bit-vector division, so they fit 16 bits. -/
theorem toInt_sdiv_of_not_overflow {a b : IntBits} (h : ¬(a.toInt = -32768 ∧ b.toInt = -1)) :
    (a.sdiv b).toInt = a.toInt.tdiv b.toInt := by
  rw [toInt_eq_min_iff, toInt_eq_neg_one_iff, not_and_or] at h
  exact BitVec.toInt_sdiv_of_ne_or_ne a b h

/-- R65: the answer of IDIV. -/
theorem exec_idiv_answer (a b : IntBits) (s : State) :
    exec (.idiv a b) s = .next
      (if b = 0 then
         (if a.toInt < 0 then s.answered 0b01 0xFFFFFFFF false true false
          else s.answered 0b01 0xFF7FFFFF false true false)
       else if a.toInt = -32768 ∧ b.toInt = -1 then s.answered 0b00 0x7FFF true false false
       else s.answered 0b00 (u16 (a.toInt.tdiv b.toInt)) false false false) := by
  rw [exec_idiv, intDivide, apply_ite s.complete, complete_intDivideByZero]
  by_cases hover : a.toInt = -32768 ∧ b.toInt = -1
  · rw [if_pos hover, hover.1, hover.2]
    rfl
  · rw [if_neg hover, ← toInt_sdiv_of_not_overflow hover, complete_encInt_of_fits]

/-- R66: the answer of IMOD. -/
theorem exec_imod_answer (a b : IntBits) (s : State) :
    exec (.imod a b) s = .next
      (if b = 0 then
         (if a.toInt < 0 then s.answered 0b01 0xFFFFFFFF false true false
          else s.answered 0b01 0xFF7FFFFF false true false)
       else s.answered 0b00 (u16 (a.toInt - b.toInt * a.toInt.tdiv b.toInt)) false false false) := by
  rw [exec_imod, intRemainder, apply_ite s.complete, complete_intDivideByZero]
  rfl

/-- Settles O18: the buses give the operands, `exec_idiv_answer` the rest. -/
theorem integerDivideAnswer : Obligations.IntegerDivideAnswer :=
  fun A B s => ⟨(decode_of_fields A B rfl rfl rfl).trans rfl, exec_idiv_answer _ _ s⟩

theorem natAbs_tmod_lt (a : Int) {b : Int} (hb : b ≠ 0) : (a.tmod b).natAbs < b.natAbs := by
  rw [Int.natAbs_tmod]
  exact Nat.mod_lt _ (Int.natAbs_pos.2 hb)

theorem abs_tmod_lt (a : Int) {b : Int} (hb : b ≠ 0) : |a.tmod b| < |b| := by
  rw [Int.abs_eq_natAbs, Int.abs_eq_natAbs]
  exact_mod_cast natAbs_tmod_lt a hb

theorem tmod_neg_iff_of_not_dvd {a b : Int} (h : ¬b ∣ a) : a.tmod b < 0 ↔ a < 0 := by
  rw [← Int.sign_eq_neg_one_iff_neg, Int.sign_tmod, if_neg h, Int.sign_eq_neg_one_iff_neg]

/-- The floored modulo has the divisor's sign: it is the truncated remainder, or lies one divisor above it when the
operands' signs differ. -/
theorem fmod_of_not_dvd {a b : Int} (h : ¬b ∣ a) :
    a.fmod b = if a < 0 ↔ b < 0 then a.tmod b else a.tmod b + b := by
  rw [Int.fmod_eq_tmod, if_neg h]
  split_ifs <;> omega

/-- The two forms of the remainder in R66 agree: the adjustment takes back the divisor exactly when it was added. -/
theorem adjustedModulo_eq_tmod (a : Int) {b : Int} (hb : b ≠ 0) : adjustedModulo a b = a.tmod b := by
  simp only [adjustedModulo, ← Int.fmod_def, ne_eq, eq_iff_iff]
  by_cases hdvd : b ∣ a
  · simp [Int.fmod_eq_zero_of_dvd hdvd, Int.tmod_eq_zero_of_dvd hdvd]
  · have hsign : a.tmod b < 0 ↔ a < 0 := tmod_neg_iff_of_not_dvd hdvd
    have hlt : (a.tmod b).natAbs < b.natAbs := natAbs_tmod_lt a hb
    rw [fmod_of_not_dvd hdvd]
    by_cases hsame : a < 0 ↔ b < 0
    · rw [if_pos hsame, if_neg fun hadjust => hadjust.2 hsign]
    · rw [if_neg hsame, if_pos (by omega), add_sub_cancel_right]

/-- Settles O19: the remainder is Lean's truncated one, whose bound and sign are known. -/
theorem integerRemainderAnswer : Obligations.IntegerRemainderAnswer := by
  intro A B s a b r
  refine ⟨(decode_of_fields A B rfl rfl rfl).trans rfl, exec_imod_answer a b s, fun hb => ?_⟩
  have hb' : b.toInt ≠ 0 := mt (toInt_eq_zero_iff b).1 hb
  have hr : r = a.toInt.tmod b.toInt := (Int.tmod_def _ _).symm
  rw [hr]
  refine ⟨(adjustedModulo_eq_tmod _ hb').symm, abs_tmod_lt _ hb', ?_⟩
  by_cases hdvd : b.toInt ∣ a.toInt
  · exact .inl (Int.tmod_eq_zero_of_dvd hdvd)
  · exact .inr (tmod_neg_iff_of_not_dvd hdvd)

/-- Settles O20: the two answers are the signed quotient and remainder of bit vectors, both exact here. -/
theorem quotientAndRemainderRecompose : Obligations.QuotientAndRemainderRecompose := by
  intro a b s hb hover
  have hq := toInt_sdiv_of_not_overflow hover
  have hr : (a.srem b).toInt = a.toInt.tmod b.toInt := BitVec.toInt_srem a b
  refine ⟨a.sdiv b, a.srem b, ?_, ?_, ?_, ?_⟩
  · rw [exec_idiv_answer, if_neg hb, if_neg hover, ← hq, u16_toInt]
  · rw [exec_imod_answer, if_neg hb, ← Int.tmod_def, ← hr, u16_toInt]
  · rw [hq, hr, Int.tdiv_mul_add_tmod]
  · rw [hr]
    exact abs_tmod_lt _ (mt (toInt_eq_zero_iff b).1 hb)

/-! ### Comparison -/

theorem toNat_msb (a : IntBits) : a.msb.toNat = a.toNat / 32768 % 2 := by
  rw [BitVec.msb_eq_getLsbD_last]
  exact Nat.toNat_testBit _ _

theorem toNat_eq_parts (a : IntBits) :
    a.toNat = 32768 * a.msb.toNat + 256 * (a.extractLsb' 8 7).toNat + (a.extractLsb' 0 8).toNat := by
  have hlt := a.isLt
  simp only [toNat_msb, BitVec.extractLsb'_toNat, Nat.shiftRight_eq_div_pow]
  omega

/-- R67: in two's complement the sign bit counts negatively, the other parts as they stand. -/
theorem toInt_eq_parts (a : IntBits) :
    a.toInt = -32768 * a.msb.toNat + 256 * (a.extractLsb' 8 7).toNat + (a.extractLsb' 0 8).toNat := by
  rw [BitVec.toInt_eq_msb_cond, toNat_eq_parts]
  cases a.msb
  · simp
  · simp only [Bool.toNat_true, if_true]
    push_cast
    ring

theorem eq_iff_parts (a b : IntBits) :
    a = b ↔ a.msb = b.msb ∧ a.extractLsb' 8 7 = b.extractLsb' 8 7 ∧ a.extractLsb' 0 8 = b.extractLsb' 0 8 := by
  constructor
  · rintro rfl
    exact ⟨rfl, rfl, rfl⟩
  · rintro ⟨hsign, htop, hlow⟩
    exact BitVec.eq_of_toNat_eq (by rw [toNat_eq_parts a, toNat_eq_parts b, hsign, htop, hlow])

/-- R67: each part outweighs the parts after it, so the first in which the operands differ decides. -/
theorem stepwiseGreater_eq (a b : IntBits) : stepwiseGreater a b = decide (a.toInt > b.toInt) := by
  have hatop : (a.extractLsb' 8 7).toNat < 128 := (a.extractLsb' 8 7).isLt
  have hbtop : (b.extractLsb' 8 7).toNat < 128 := (b.extractLsb' 8 7).isLt
  have halow : (a.extractLsb' 0 8).toNat < 256 := (a.extractLsb' 0 8).isLt
  have hblow : (b.extractLsb' 0 8).toNat < 256 := (b.extractLsb' 0 8).isLt
  rw [stepwiseGreater, toInt_eq_parts a, toInt_eq_parts b]
  by_cases hsign : a.msb = b.msb
  · by_cases htop : a.extractLsb' 8 7 = b.extractLsb' 8 7
    · simp only [hsign, htop, ne_eq, not_true_eq_false, if_false, gt_iff_lt, BitVec.lt_def, decide_eq_decide]
      omega
    · have hne := mt BitVec.eq_of_toNat_eq htop
      simp only [hsign, htop, ne_eq, not_true_eq_false, not_false_eq_true, if_false, if_true, gt_iff_lt, BitVec.lt_def,
        decide_eq_decide]
      omega
  · rw [if_pos hsign, Bool.eq_not.2 hsign]
    cases b.msb
    · refine (decide_eq_false ?_).symm
      simp only [Bool.not_false, Bool.toNat_false, Bool.toNat_true]
      omega
    · refine (decide_eq_true ?_).symm
      simp only [Bool.not_true, Bool.toNat_false, Bool.toNat_true]
      omega

/-- Settles O21: `exec` compares the signed values, and the three steps decide the same order. -/
theorem integerGreaterAnswer : Obligations.IntegerGreaterAnswer :=
  fun A B s => ⟨(decode_of_fields A B rfl rfl rfl).trans rfl, exec_igt _ _ s, stepwiseGreater_eq _ _⟩

theorem low16_eq_iff (A B : Bus) :
    A.toNat % 65536 = B.toNat % 65536 ↔ A.extractLsb' 0 16 = B.extractLsb' 0 16 := by
  simp [← BitVec.toNat_inj]

/-- Settles O22: the low 16 bits are the operands, which are equal when all three parts are. -/
theorem integerEqualAnswer : Obligations.IntegerEqualAnswer := by
  intro A B s a b
  refine ⟨(decode_of_fields A B rfl rfl rfl).trans rfl, ?_, (low16_eq_iff A B).trans (eq_iff_parts a b)⟩
  simp only [low16_eq_iff, exec_ieq, complete_compared, a, b]

end Sys2Proof.Machine
end

section
/-! Proofs of the renormalizer family's statements: the three steps of `renorm` as equations, and the guard byte's
rounding as an integer distance. -/

namespace Sys2Proof.Machine

/-! ### The guard byte -/

theorem toNat_roundsUp (m : Nat) :
    (roundsUp m).toNat = if m % 256 > 128 ∨ (m % 256 = 128 ∧ m / 256 % 2 = 1) then 1 else 0 := by
  rw [roundsUp_eq, Bool.toNat, Bool.cond_decide]

/-- Settles O26: rounding down drops the guard byte `g`, rounding up adds `256 - g`, so a half is reached at 0x80
alone, where the bit above decides. -/
theorem guardByteRoundsToNearestEven : Obligations.GuardByteRoundsToNearestEven := by
  intro man
  rw [toNat_roundsUp, roundsUp_eq]
  simp only [decide_eq_false_iff_not, decide_eq_true_eq, Int.abs_eq_natAbs]
  refine ⟨by omega, by omega, by omega, by omega, ?_⟩
  by_cases hup : man % 256 > 128 ∨ (man % 256 = 128 ∧ man / 256 % 2 = 1)
  · rw [if_pos hup]
    omega
  · rw [if_neg hup]
    omega

/-! ### The steps of `renorm` -/

/-- Step 1: the shift is by the leading zeros (R82). -/
theorem normalize_eq (f : Fmt) (t : Triple) (h0 : t.man ≠ 0) (hlt : t.man < 2 ^ f.W) :
    normalize f t =
      ⟨t.exp - (f.W - 1 - t.man.log2 : Nat), t.man * 2 ^ (f.W - 1 - t.man.log2), t.neg⟩ ∧
    Normalized f (t.man * 2 ^ (f.W - 1 - t.man.log2)) := by
  obtain ⟨z, heq, hn⟩ := normalize_spec f t h0 hlt
  obtain rfl := shift_eq_leadingZeros f t.man z hn
  exact ⟨heq, hn⟩

/-- The rounded significand reaches `2^M` only exactly. -/
theorem roundedSig_le (f : Fmt) {m : Nat} (h : Normalized f m) : m / 256 + (roundsUp m).toNat ≤ 2 ^ f.M := by
  obtain ⟨hlt, -⟩ | ⟨heq, -⟩ := roundSig_cases f ⟨0, m, false⟩ h
  · exact hlt.le
  · exact heq.le

/-- Steps 2 and 3 in one form: a rounding carry halves the significand and raises the exponent. -/
theorem roundSig_eq (f : Fmt) (e : Int) (m : Nat) (neg : Bool) (h : Normalized f m) :
    roundSig f ⟨e, m, neg⟩ =
      ⟨e + (if m / 256 + (roundsUp m).toNat = 2 ^ f.M then 1 else 0),
       if m / 256 + (roundsUp m).toNat = 2 ^ f.M then 2 ^ (f.M - 1) else m / 256 + (roundsUp m).toNat, neg⟩ := by
  obtain ⟨hlt, hround⟩ | ⟨hcarry, hround⟩ := roundSig_cases f ⟨e, m, neg⟩ h
  · rw [hround, if_neg hlt.ne, if_neg hlt.ne, add_zero]
  · rw [hround, if_pos hcarry, if_pos hcarry]

/-- Settles O24: `renorm` is the range check on the rounded form of the mantissa shifted by its leading zeros. -/
theorem renormalizerClosedForm : Obligations.RenormalizerClosedForm := by
  intro f t hlt z m g up carry sg e
  have hup : (roundsUp m).toNat = up := toNat_roundsUp m
  by_cases h0 : t.man = 0
  · exact ⟨fun h => absurd h0 h, by rw [renorm, if_pos h0, if_pos h0]; rfl⟩
  · obtain ⟨hnormalize, hn⟩ := normalize_eq f t h0 hlt
    have hle : m / 256 + up ≤ 2 ^ f.M := hup ▸ roundedSig_le f hn
    have hround : roundSig f (normalize f t) = ⟨e, sg, t.neg⟩ := by
      rw [hnormalize, roundSig_eq f _ _ _ hn, hup]
    refine ⟨fun _ => ⟨hn.1, hn.2, hle.ge_iff_eq⟩, ?_⟩
    rw [renorm, if_neg h0, if_neg h0, hround]
    rfl

/-- R86: an unpacked mantissa has a guard byte of 0, so the steps leave its significand and exponent as they are. -/
theorem roundSig_den (f : Fmt) (x : Bus) : roundSig f (den f x) = ⟨expb f x, sig f x, sgn f x⟩ := by
  have hdown : roundsUp (den f x).man = false := by simp [roundsUp_eq, den_man]
  have hsig : (den f x).man / 256 + (roundsUp (den f x).man).toNat = sig f x := by
    rw [hdown, den_man, Nat.mul_div_cancel _ (by decide)]
    rfl
  obtain ⟨-, hround⟩ | ⟨hcarry, -⟩ := roundSig_cases f (den f x) (den_normalized f x)
  · rw [hround, hsig]
    rfl
  · exact absurd (hsig.symm.trans hcarry) (sig_lt f x).ne

/-- Settles O25: no step changes the unpacked value, its exponent byte is within range, and its fields pack to it. -/
theorem renormalizerRestoresUnpacked : Obligations.RenormalizerRestoresUnpacked := by
  intro f x hx hzero
  have hn := den_normalized f x
  have hman : (den f x).man ≠ 0 := (lt_of_lt_of_le (by positivity) hn.1).ne'
  have hlow := expb_pos hzero
  have hhigh := expb_lt f x
  rw [renorm, if_neg hman, normalize_of_normalized f _ hn, roundSig_den, rangeCheck, if_neg (by dsimp only; omega),
    if_neg (by dsimp only; omega), Int.toNat_natCast, pack_fields f x hx]
  rfl

/-! ### The command -/

/-- Settles O23: the fields of the two words name RNRM, which executes as `renorm` of the triple on its buses. -/
theorem renormalizeCommandAnswer : Obligations.RenormalizeCommandAnswer := fun A B s =>
  ⟨(decode_of_fields A B rfl rfl rfl).trans rfl, (decode_of_fields A B rfl rfl rfl).trans rfl,
   fun man exp neg => exec_rnrmS man exp neg s, fun man exp neg => exec_rnrmD man exp neg s⟩

end Sys2Proof.Machine
end

section
/-! Proofs of the adder family's statements: the answers on zero operands, the alignment of unpacked operands in one
form, the order of the operands, and the sign inversion of FSUB. -/

namespace Sys2Proof.Machine

/-! ### The answers of `fadd` by its operands' zeros (R92) -/

theorem fadd_of_zeros (p : Params) {f : Fmt} {a b : Bus} (ha : isZero f a = true) (hb : isZero f b = true) :
    fadd p f a b = result f.tag (zero f) := by
  simp [fadd, ha, hb]

theorem fadd_of_zero_right (p : Params) {f : Fmt} {a b : Bus} (ha : isZero f a = false) (hb : isZero f b = true) :
    fadd p f a b = result f.tag a := by
  simp [fadd, ha, hb]

theorem fadd_of_zero_left (p : Params) {f : Fmt} {a b : Bus} (ha : isZero f a = true) (hb : isZero f b = false) :
    fadd p f a b = result f.tag b := by
  simp [fadd, ha, hb]

theorem fadd_of_nonzero (p : Params) {f : Fmt} {a b : Bus} (ha : isZero f a = false) (hb : isZero f b = false) :
    fadd p f a b = renorm f (addTriple p f (den f a) (den f b)) := by
  simp [fadd, ha, hb]

/-- Settles O28: the two tests on zeros are `fadd`'s first, and the latch of a result has no flag. -/
theorem adderZeroOperands : Obligations.AdderZeroOperands := fun p _ _ _ =>
  ⟨fadd_of_zeros p, fadd_of_zero_right p, fadd_of_zero_left p, fadd_of_nonzero p⟩

/-! ### The order of the operands -/

theorem renorm_of_man_eq_zero (f : Fmt) {t : Triple} (h : t.man = 0) : renorm f t = result f.tag (zero f) := if_pos h

theorem align_of_le (f : Fmt) {x y : Triple} (h : y.exp ≤ x.exp) : align f x y = alignTo f x y := if_pos h

theorem align_of_lt (f : Fmt) {x y : Triple} (h : x.exp < y.exp) : align f x y = alignTo f y x :=
  if_neg (not_le.2 h)

/-- Different exponents say which operand is shifted, whatever the order (R93). -/
theorem align_comm_of_exp_ne (f : Fmt) {x y : Triple} (h : x.exp ≠ y.exp) : align f x y = align f y x := by
  obtain hlt | hgt := lt_or_gt_of_ne h
  · rw [align_of_lt f hlt, align_of_le f hlt.le]
  · rw [align_of_le f hgt.le, align_of_lt f hgt]

/-- Equal exponents leave both mantissas as they are (R93). -/
theorem align_of_exp_eq (f : Fmt) {x y : Triple} (h : x.exp = y.exp) :
    align f x y = ⟨x.exp, x.man, x.neg, y.man, y.neg, false⟩ := by
  have hW : f.W ≠ 0 := by cases f <;> decide
  simp [align, alignTo, h, hW, Nat.mod_one]

/-- The two aligned magnitudes in the other order. -/
def Aligned.swap (al : Aligned) : Aligned :=
  { al with mh := al.ml, sh := al.sl, ml := al.mh, sl := al.sh }

theorem align_swap_of_exp_eq (f : Fmt) {x y : Triple} (h : x.exp = y.exp) : align f y x = (align f x y).swap := by
  rw [align_of_exp_eq f h, align_of_exp_eq f h.symm, h]
  rfl

theorem addMagnitudes_swap (f : Fmt) {al : Aligned} (h : al.sh = al.sl) :
    addMagnitudes f al.swap = addMagnitudes f al := by
  simp only [addMagnitudes, Aligned.swap, add_comm al.ml, h]

/-- The sign of a difference is the larger magnitude's, so its order matters to the sign of a zero alone, which
`renorm` drops. -/
theorem renorm_subDifference_swap (f : Fmt) (al : Aligned) :
    renorm f (subDifference al.swap) = renorm f (subDifference al) := by
  obtain hlt | heq | hgt := lt_trichotomy al.mh al.ml
  · simp [subDifference, Aligned.swap, hlt, hlt.not_gt]
  · rw [renorm_of_man_eq_zero, renorm_of_man_eq_zero] <;> simp [subDifference, Aligned.swap, heq]
  · simp [subDifference, Aligned.swap, hgt, hgt.not_gt]

theorem subMagnitudes_of_not_lost (p : Params) (f : Fmt) {al : Aligned} (h : al.lost = false) :
    subMagnitudes p f al = subDifference al := by
  simp [subMagnitudes, h]

/-- The signs after alignment say whether the magnitudes are added (R94) or subtracted (R95). -/
theorem addTriple_of_sign_eq (p : Params) (f : Fmt) {x y : Triple} (h : (align f x y).sh = (align f x y).sl) :
    addTriple p f x y = addMagnitudes f (align f x y) := if_pos h

theorem addTriple_of_sign_ne (p : Params) (f : Fmt) {x y : Triple} (h : (align f x y).sh ≠ (align f x y).sl) :
    addTriple p f x y = subMagnitudes p f (align f x y) := if_neg h

theorem renorm_addTriple_comm (p : Params) (f : Fmt) (x y : Triple) :
    renorm f (addTriple p f x y) = renorm f (addTriple p f y x) := by
  by_cases hexp : x.exp = y.exp
  · have hswap := align_swap_of_exp_eq f hexp
    by_cases hsign : (align f x y).sh = (align f x y).sl
    · rw [addTriple_of_sign_eq p f hsign, addTriple_of_sign_eq p f (hswap ▸ hsign.symm), hswap,
        addMagnitudes_swap f hsign]
    · have hlost : (align f x y).lost = false := by rw [align_of_exp_eq f hexp]
      have hlost' : (align f x y).swap.lost = false := hlost
      rw [addTriple_of_sign_ne p f hsign, addTriple_of_sign_ne p f (hswap ▸ Ne.symm hsign), hswap,
        subMagnitudes_of_not_lost p f hlost, subMagnitudes_of_not_lost p f hlost', renorm_subDifference_swap]
  · simp only [addTriple, align_comm_of_exp_ne f hexp]

/-- R96: the order of the operands does not matter, zeros included. -/
theorem fadd_comm (p : Params) (f : Fmt) (a b : Bus) : fadd p f a b = fadd p f b a := by
  cases ha : isZero f a <;> cases hb : isZero f b
  · rw [fadd_of_nonzero p ha hb, fadd_of_nonzero p hb ha, renorm_addTriple_comm]
  · rw [fadd_of_zero_right p ha hb, fadd_of_zero_left p hb ha]
  · rw [fadd_of_zero_left p ha hb, fadd_of_zero_right p hb ha]
  · rw [fadd_of_zeros p ha hb, fadd_of_zeros p hb ha]

theorem workFmt_comm (ta tb : Tag) : workFmt ta tb = workFmt tb ta := by simp only [workFmt, or_comm]

/-- Promotion treats its two operands alike, so FADD on operands of any types commutes as `fadd` does. -/
theorem floatAdd_comm (p : Params) (x y : Operand) : floatAdd p x y = floatAdd p y x := by
  simp only [floatAdd, prom, workFmt_comm y.tag, fadd_comm p _ (conv _ y)]

/-- Settles O31: every form completes with the sum of its operands, which is the same in either order. -/
theorem floatAddCommutes : Obligations.FloatAddCommutes :=
  ⟨fadd_comm,
   fun a b s => by rw [exec_faddS, exec_faddS, floatAdd_comm],
   fun a b s => by rw [exec_faddSD, exec_faddDS, floatAdd_comm],
   fun a b s => by rw [exec_faddD, exec_faddD, floatAdd_comm]⟩

/-! ### The open parameters -/

/-- Without lost bits `SUBQ` is not applied (R95), and nothing else of the sum depends on the parameters. -/
theorem addTriple_eq_of_not_lost (p p' : Params) (f : Fmt) {x y : Triple} (h : (align f x y).lost = false) :
    addTriple p f x y = addTriple p' f x y := by
  simp only [addTriple, subMagnitudes_of_not_lost _ f h]

/-- Settles O32: a shift by at most 8 places drops a part of the guard byte, which is 0, so no bit is lost. -/
theorem closeOperandsIgnoreCorrection : Obligations.CloseOperandsIgnoreCorrection := by
  intro p p' f a b h1 h2
  simp only [fadd, addTriple_eq_of_not_lost p p' f (align_lost_close f a b h1 h2)]

/-! ### The sum of unpacked operands -/

/-- The alignment of two unpacked operands, the larger exponent first (R93). -/
theorem align_den (f : Fmt) {a b : Bus} (h : expb f b ≤ expb f a) :
    align f (den f a) (den f b) =
      ⟨expb f a, sig f a * 256, sgn f a, sig f b * 256 / 2 ^ (expb f a - expb f b), sgn f b,
       decide (sig f b * 256 % 2 ^ (expb f a - expb f b) ≠ 0)⟩ := by
  rw [align_of_le f (Int.ofNat_le.2 h), alignTo_eq f _ _ (den_normalized f b)]
  simp only [den_exp, den_man, den_neg, Int.toNat_sub]

/-- Settles O29: the aligned magnitudes are added, and `fadd` commutes. -/
theorem adderSameSigns : Obligations.AdderSameSigns := by
  intro p f a b ha hb hs hle man sum
  have hsum : fadd p f a b = sum := by
    rw [fadd_of_nonzero p ha hb, addTriple_of_sign_eq p f (by simpa [align_den f hle]), align_den f hle]
    simp only [addMagnitudes, Nat.shiftRight_one]
    exact apply_ite (renorm f) _ _ _
  exact ⟨hsum, (fadd_comm p f b a).trans hsum⟩

/-- A mantissa that lost a bit was halved at least, so it is below every normalized one. -/
theorem aligned_lt_of_lost (f : Fmt) (a b : Bus) (d : Nat) (hlost : sig f b * 256 % 2 ^ d ≠ 0) :
    sig f b * 256 / 2 ^ d < sig f a * 256 := by
  have hd : 1 ≤ d := Nat.one_le_iff_ne_zero.2 fun h => hlost (by rw [h, pow_zero, Nat.mod_one])
  have hhalf : sig f b * 256 / 2 ^ d ≤ sig f b * 256 / 2 ^ 1 :=
    Nat.div_le_div_left (Nat.pow_le_pow_right (by decide) hd) (by decide)
  have hb := sig_lt f b
  have ha := sig_ge f a
  have hM := two_pow_M f
  omega

/-- Settles O30: lost bits decide on `SUBQ`, the larger magnitude on the sign, and `fadd` commutes. -/
theorem adderDifferentSigns : Obligations.AdderDifferentSigns := by
  intro p f a b ha hb hs hle d mh ml lost
  have hsum : fadd p f a b = renorm f (subMagnitudes p f ⟨expb f a, mh, sgn f a, ml, sgn f b, decide lost⟩) := by
    rw [fadd_of_nonzero p ha hb, addTriple_of_sign_ne p f (by simpa [align_den f hle]), align_den f hle]
  refine ⟨fun hlost => ?_, fun hlost hge => ?_, fun hlost hlt => ?_, fadd_comm p f b a⟩
  · have hlt : ml < mh := aligned_lt_of_lost f a b d hlost
    rw [hsum]
    simp [subMagnitudes, subDifference, hlost, hlt.not_gt]
  · rw [hsum, subMagnitudes_of_not_lost p f (decide_eq_false hlost)]
    simp [subDifference, hge.not_gt]
  · rw [hsum, subMagnitudes_of_not_lost p f (decide_eq_false hlost)]
    simp [subDifference, hlt]

/-! ### Sign inversion (R91) -/

theorem fneg_toNat (f : Fmt) (x : Bus) : (fneg f x).toNat = x.toNat ^^^ 2 ^ (f.W - 9) := by
  have hlt : 2 ^ (f.W - 9) < 2 ^ 64 := by cases f <;> decide
  rw [fneg, BitVec.toNat_xor, BitVec.toNat_ofNat, Nat.mod_eq_of_lt hlt]

@[simp] theorem expb_fneg (f : Fmt) (x : Bus) : expb f (fneg f x) = expb f x := by
  have hbit : 2 ^ (f.W - 9) / 2 ^ (f.W - 8) = 0 := by cases f <;> decide
  rw [expb, fneg_toNat, Nat.xor_div_two_pow, hbit, Nat.xor_zero, expb]

@[simp] theorem isZero_fneg (f : Fmt) (x : Bus) : isZero f (fneg f x) = isZero f x := by simp [isZero]

@[simp] theorem sig_fneg (f : Fmt) (x : Bus) : sig f (fneg f x) = sig f x := by
  have hbit : 2 ^ (f.W - 9) % 2 ^ (f.M - 1) = 0 := by cases f <;> decide
  rw [sig, frac, fneg_toNat, Nat.xor_mod_two_pow, hbit, Nat.xor_zero, sig, frac]

@[simp] theorem sgn_fneg (f : Fmt) (x : Bus) : sgn f (fneg f x) = !sgn f x := by
  have hbit : (BitVec.ofNat 64 (2 ^ (f.W - 9))).getLsbD (f.W - 9) = true := by cases f <;> decide
  rw [sgn, fneg, BitVec.getLsbD_xor, hbit, Bool.xor_true, sgn]

/-- A float and its inverse have the same exponent and mantissa, so nothing is left of their sum, nor is a bit lost. -/
theorem fadd_fneg_self (p : Params) (f : Fmt) (x : Bus) : fadd p f x (fneg f x) = result f.tag (zero f) := by
  cases hx : isZero f x
  · obtain ⟨-, hdifference, -⟩ := adderDifferentSigns p f x (fneg f x) hx (by simpa) (by simp) (by simp)
    rw [hdifference (by simp [Nat.mod_one]) (by simp), renorm_of_man_eq_zero f (by simp)]
  · exact fadd_of_zeros p hx (by simpa)

/-! ### The commands -/

theorem widen_eq_shiftLeft (x : SngBits) : widen x = x.setWidth 64 <<< 32 := by
  apply BitVec.eq_of_toNat_eq
  have hx := x.isLt
  rw [widen_toNat, BitVec.toNat_shiftLeft, BitVec.toNat_setWidth, Nat.shiftLeft_eq]
  omega

/-- Settles O27: the fields of the four words name FADD, and a Single beside a Double is promoted by `widen`. -/
theorem floatAddAnswer : Obligations.FloatAddAnswer := fun A B s =>
  ⟨(decode_of_fields A B rfl rfl rfl).trans rfl, (decode_of_fields A B rfl rfl rfl).trans rfl,
   (decode_of_fields A B rfl rfl rfl).trans rfl, (decode_of_fields A B rfl rfl rfl).trans rfl,
   fun a b => exec_faddS a b s,
   fun a b => widen_eq_shiftLeft a ▸ exec_faddSD a b s,
   fun a b => widen_eq_shiftLeft b ▸ exec_faddDS a b s,
   fun a b => exec_faddD a b s⟩

/-- Settles O34: the fields of the four words name FSUB, and `fneg` inverts bit `W - 9` of the promoted operand. -/
theorem floatSubtractAnswer : Obligations.FloatSubtractAnswer := fun A B s =>
  ⟨(decode_of_fields A B rfl rfl rfl).trans rfl, (decode_of_fields A B rfl rfl rfl).trans rfl,
   (decode_of_fields A B rfl rfl rfl).trans rfl, (decode_of_fields A B rfl rfl rfl).trans rfl,
   fun a b => exec_fsubS a b s,
   fun a b => widen_eq_shiftLeft a ▸ exec_fsubSD a b s,
   fun a b => widen_eq_shiftLeft b ▸ exec_fsubDS a b s,
   fun a b => exec_fsubD a b s⟩

theorem expb_onBus (x : SngBits) : expb .sng (onBus x) = x.toNat / 2 ^ 24 := by
  have hx := x.isLt
  simp only [expb, onBus_toNat (n := 32) (by decide), Fmt.W]
  omega

theorem expb_dbl (x : DblBits) : expb .dbl x = x.toNat / 2 ^ 56 := by
  have hx := x.isLt
  simp only [expb, Fmt.W]
  omega

theorem isZero_onBus_iff (x : SngBits) : isZero .sng (onBus x) = true ↔ x.toNat / 2 ^ 24 = 0 := by
  rw [isZero_iff, expb_onBus]

theorem isZero_dbl_iff (x : DblBits) : isZero .dbl x = true ↔ x.toNat / 2 ^ 56 = 0 := by
  rw [isZero_iff, expb_dbl]

theorem floatSub_sng (p : Params) (a b : SngBits) :
    floatSub p (.sng a) (.sng b) = fadd p .sng (onBus a) (fneg .sng (onBus b)) := rfl

theorem floatSub_dbl (p : Params) (a b : DblBits) :
    floatSub p (.dbl a) (.dbl b) = fadd p .dbl a (fneg .dbl b) := rfl

/-- Settles O35: `x` and its inverse cancel, and an inverted zero is still a zero. -/
theorem subtractSelfAndZero : Obligations.SubtractSelfAndZero := by
  refine fun s => ⟨fun x => ?_, fun x => ?_, fun x z hx hz => ?_, fun x z hx hz => ?_⟩
  · rw [exec_fsubS, floatSub_sng, fadd_fneg_self]
    rfl
  · rw [exec_fsubD, floatSub_dbl, fadd_fneg_self]
    rfl
  · rw [← isZero_onBus_iff] at hz
    rw [ne_eq, ← isZero_onBus_iff, Bool.not_eq_true] at hx
    rw [exec_fsubS, floatSub_sng, fadd_of_zero_left _ hz (by simpa), exec_fsubS, floatSub_sng,
      fadd_of_zero_right _ hx (by simpa)]
    exact ⟨rfl, rfl⟩
  · rw [← isZero_dbl_iff] at hz
    rw [ne_eq, ← isZero_dbl_iff, Bool.not_eq_true] at hx
    rw [exec_fsubD, floatSub_dbl, fadd_of_zero_left _ hz (by simpa), exec_fsubD, floatSub_dbl,
      fadd_of_zero_right _ hx (by simpa)]
    exact ⟨rfl, rfl⟩

end Sys2Proof.Machine
end

section
/-! Proofs of the multiplier family's statements: the answers of `fmul` by its operands' zeros, the closed form of a
product, the order of the operands, and the product with 1. -/

namespace Sys2Proof.Machine

/-! ### The answers of `fmul` by its operands' zeros (R101) -/

theorem fmul_of_zero_left (p : Params) {f : Fmt} {a : Bus} (b : Bus) (ha : isZero f a = true) :
    fmul p f a b = result f.tag (zero f) := by
  simp [fmul, ha]

theorem fmul_of_zero_right (p : Params) {f : Fmt} (a : Bus) {b : Bus} (hb : isZero f b = true) :
    fmul p f a b = result f.tag (zero f) := by
  simp [fmul, hb]

theorem fmul_of_nonzero (p : Params) {f : Fmt} {a b : Bus} (ha : isZero f a = false) (hb : isZero f b = false) :
    fmul p f a b = renorm f (mulCorrect p f (mulTriple f (den f a) (den f b))) := by
  simp [fmul, ha, hb]

/-- Settles O37: the test on zeros is `fmul`'s first, and the latch of a result has no flag. -/
theorem multiplierZeroShortCircuit : Obligations.MultiplierZeroShortCircuit := by
  rintro p f a b (ha | hb)
  · exact fmul_of_zero_left p b ha
  · exact fmul_of_zero_right p a hb

/-! ### The product of unpacked operands -/

/-- Settles O38: unpacked mantissas are normalized, so the range shift of R102 is by one of two counts; `MULQ` changes
the mantissa alone. -/
theorem productRangeShift : Obligations.ProductRangeShift := by
  intro p f a b ha hb prod k m
  obtain ⟨j, hj, ⟨hlow, hhigh⟩, heq⟩ := mulTriple_eq f _ _ (den_normalized f a) (den_normalized f b)
  rw [den_man, den_man] at hj hlow hhigh heq
  obtain rfl : j = k := hj
  exact ⟨hlow, hhigh, by rw [fmul_of_nonzero p ha hb, heq]; rfl⟩

/-! ### The order of the operands -/

/-- R102 is symmetric in its operands. -/
theorem mulTriple_comm (f : Fmt) (x y : Triple) : mulTriple f x y = mulTriple f y x := by
  simp only [mulTriple, add_comm y.exp, mul_comm y.man, Bool.xor_comm y.neg]

theorem fmul_comm (p : Params) (f : Fmt) (a b : Bus) : fmul p f a b = fmul p f b a := by
  simp only [fmul, Bool.or_comm (isZero f b), mulTriple_comm f (den f b)]

/-- Promotion treats its two operands alike, so FMUL on operands of any types commutes as `fmul` does. -/
theorem floatMul_comm (p : Params) (x y : Operand) : floatMul p x y = floatMul p y x := by
  simp only [floatMul, prom, workFmt_comm y.tag, fmul_comm p _ (conv _ y)]

/-- Settles O39: every form completes with the product of its operands, which is the same in either order. -/
theorem floatMultiplyCommutes : Obligations.FloatMultiplyCommutes :=
  ⟨fmul_comm,
   fun a b s => by rw [exec_fmulS, exec_fmulS, floatMul_comm],
   fun a b s => by rw [exec_fmulSD, exec_fmulDS, floatMul_comm],
   fun a b s => by rw [exec_fmulD, exec_fmulD, floatMul_comm]⟩

/-! ### The product with 1 -/

/-- The packed 1: significand `2^(M-1)` at exponent 129 (R27). -/
def packedOne (f : Fmt) : Bus := pack f 129 (2 ^ (f.M - 1)) false

theorem expb_packedOne (f : Fmt) : expb f (packedOne f) = 129 := expb_pack f _ _ _ (by decide)

theorem sgn_packedOne (f : Fmt) : sgn f (packedOne f) = false := sgn_pack f _ _ _ (by decide)

theorem sig_packedOne (f : Fmt) : sig f (packedOne f) = 2 ^ (f.M - 1) :=
  sig_pack f _ _ _ (by decide) le_rfl (by cases f <;> decide)

theorem isZero_packedOne (f : Fmt) : isZero f (packedOne f) = false := by simp [isZero, expb_packedOne]

/-- Multiplying by 1 shifts the mantissa left by `W - 1` places, and the range shift takes it back (R104). -/
theorem mulTriple_den_packedOne (f : Fmt) (x : Bus) : mulTriple f (den f x) (den f (packedOne f)) = den f x := by
  obtain ⟨k, hk, -, heq⟩ := mulTriple_eq f _ _ (den_normalized f x) (den_normalized f (packedOne f))
  have hone : (den f (packedOne f)).man = 2 ^ (f.W - 1) := by rw [den_man, sig_packedOne, two_pow_W_eq_M]
  have hsmall : (den f x).man * 2 ^ (f.W - 1) < 2 ^ (2 * f.W - 1) :=
    calc (den f x).man * 2 ^ (f.W - 1)
        < 2 ^ f.W * 2 ^ (f.W - 1) := Nat.mul_lt_mul_of_pos_right (den_normalized f x).2 (by positivity)
      _ = 2 ^ (2 * f.W - 1) := by cases f <;> rfl
  have hexp : (expb f x : Int) + 129 - f.bias - 8 + (f.W - 1 : Nat) = expb f x := by
    cases f <;> simp only [Fmt.bias, Fmt.W] <;> omega
  rw [hone, if_neg hsmall.not_ge] at hk
  rw [heq, hk, hone, Nat.mul_div_cancel _ (by positivity), den_exp, den_exp, expb_packedOne, den_neg, den_neg,
    sgn_packedOne, Bool.xor_false, Nat.cast_ofNat, hexp]
  rfl

/-- Settles O40: the default `MULQ` changes nothing, so what is renormalized is `x` as unpacked. -/
theorem defaultMultiplyByOne : Obligations.DefaultMultiplyByOne := by
  intro f x hx hzero
  calc fmul Params.default f x (packedOne f)
      = renorm f (mulTriple f (den f x) (den f (packedOne f))) :=
        fmul_of_nonzero Params.default hzero (isZero_packedOne f)
    _ = renorm f (den f x) := by rw [mulTriple_den_packedOne]
    _ = _ := renormalizerRestoresUnpacked f x hx hzero

/-! ### The command -/

/-- Settles O36: the fields of the four words name FMUL, and a Single beside a Double is promoted by `widen`. -/
theorem floatMultiplyAnswer : Obligations.FloatMultiplyAnswer := fun A B s =>
  ⟨(decode_of_fields A B rfl rfl rfl).trans rfl, (decode_of_fields A B rfl rfl rfl).trans rfl,
   (decode_of_fields A B rfl rfl rfl).trans rfl, (decode_of_fields A B rfl rfl rfl).trans rfl,
   fun a b => exec_fmulS a b s,
   fun a b => widen_eq_shiftLeft a ▸ exec_fmulSD a b s,
   fun a b => widen_eq_shiftLeft b ▸ exec_fmulDS a b s,
   fun a b => exec_fmulD a b s⟩

end Sys2Proof.Machine
end

section
/-! Proofs of the divider family's statements: the closed form of a quotient, the digit recurrence against the exact
quotient, and the quotients of `x` by itself and by 1. -/

namespace Sys2Proof.Machine

/-! ### The quotient of unpacked operands -/

theorem fdiv_of_nonzero (p : Params) {f : Fmt} {a b : Bus} (ha : isZero f a = false) (hb : isZero f b = false) :
    fdiv p f a b = renorm f (divTriple p f (den f a) (den f b)) := by
  simp [fdiv, ha, hb]

/-- The closed form of R113 on unpacked operands. -/
theorem divTriple_den (p : Params) (f : Fmt) (a b : Bus) :
    divTriple p f (den f a) (den f b) =
      ⟨(expb f a : Int) - expb f b + 129, p.divq f (sig f a * 256) (sig f b * 256), sgn f a ^^ sgn f b⟩ := by
  rw [← den_man, ← den_man]
  exact congrArg (Triple.mk · _ _) (divTriple_exp p f (den f a) (den f b))

/-! ### The restoring division -/

theorem normalized_pos {f : Fmt} {man : Nat} (h : Normalized f man) : 0 < man :=
  lt_of_lt_of_le (by positivity) h.1

/-- A normalized dividend is below twice the divisor, where the digit recurrence finds the exact quotient (R113). -/
theorem restoringDivide_eq_defaultDivq (f : Fmt) {ma mb : Nat} (ha : Normalized f ma) (hb : Normalized f mb) :
    restoringDivide f ma mb = defaultDivq f ma mb := by
  have hlt : ma < 2 * mb := by
    have := two_pow_W f
    omega
  rw [restoringDivide, restoringLoop_eq mb f.W ma 0 (normalized_pos hb) hlt, Nat.zero_mul, Nat.zero_add, two_pow_W, ← two_mul,
    Nat.mul_left_comm, Nat.mul_div_mul_left _ _ two_pos, defaultDivq]

/-- The top bit of the quotient is the comparison of the mantissas. -/
theorem two_pow_le_defaultDivq_iff (f : Fmt) (ma : Nat) {mb : Nat} (hb : 0 < mb) :
    2 ^ (f.W - 1) ≤ defaultDivq f ma mb ↔ mb ≤ ma := by
  rw [defaultDivq, Nat.le_div_iff_mul_le hb, Nat.mul_comm]
  exact Nat.mul_le_mul_right_iff (by positivity)

/-- The guard byte of an unpacked divisor is 0, which keeps it far enough below `2^W` for a strict bound. -/
theorem lt_defaultDivq_of_unpacked (f : Fmt) (a b : Bus) :
    2 ^ (f.W - 2) < defaultDivq f (sig f a * 256) (sig f b * 256) := by
  have ha := sig_ge f a
  have hb := sig_lt f b
  have hpos : 0 < sig f b * 256 := den_man f b ▸ normalized_pos (den_normalized f b)
  rw [defaultDivq, Nat.lt_iff_add_one_le, Nat.le_div_iff_mul_le hpos]
  cases f <;> simp only [Fmt.M, Fmt.W] at * <;> omega

/-- Settles O43: the closed form of R113, and the digit recurrence is the exact quotient, whose bounds are those of the
default `DIVQ`. -/
theorem restoringDivisionFindsQuotient : Obligations.RestoringDivisionFindsQuotient := by
  refine ⟨fun p f a b ha hb => ?_, fun f ma mb ha hb => ?_, fun f a b => ?_⟩
  · rw [fdiv_of_nonzero p ha hb, divTriple_den]
  · rw [restoringDivide_eq_defaultDivq f ha hb]
    exact ⟨rfl, rfl, defaultDivq_lt f ma mb ha hb, two_pow_le_defaultDivq_iff f ma (normalized_pos hb)⟩
  · rw [← den_man, ← den_man, restoringDivide_eq_defaultDivq f (den_normalized f a) (den_normalized f b), den_man,
      den_man]
    exact lt_defaultDivq_of_unpacked f a b

/-! ### The quotients by `x` itself and by 1, under the default `DIVQ` -/

theorem den_packedOne_man (f : Fmt) : (den f (packedOne f)).man = 2 ^ (f.W - 1) := by
  rw [den_man, sig_packedOne, two_pow_W_eq_M]

/-- Equal mantissas have the quotient `2^(W-1)`, equal exponents and signs cancel: the triple of 1. -/
theorem divTriple_default_self (f : Fmt) (x : Bus) :
    divTriple Params.default f (den f x) (den f x) = den f (packedOne f) := by
  have hman : defaultDivq f (sig f x * 256) (sig f x * 256) = (den f (packedOne f)).man := by
    rw [den_packedOne_man, ← den_man, defaultDivq, Nat.mul_div_cancel_left _ (normalized_pos (den_normalized f x))]
  have hexp : (expb f x : Int) - expb f x + 129 = (den f (packedOne f)).exp := by
    rw [sub_self, zero_add, den_exp, expb_packedOne, Nat.cast_ofNat]
  have hneg : (sgn f x ^^ sgn f x) = (den f (packedOne f)).neg := by
    rw [Bool.xor_self, den_neg, sgn_packedOne]
  rw [divTriple_den, hexp, hneg]
  exact congrArg (Triple.mk _ · _) hman

/-- The mantissa of 1 is the power of two by which the default `DIVQ` scales the dividend. -/
theorem divTriple_default_packedOne (f : Fmt) (x : Bus) :
    divTriple Params.default f (den f x) (den f (packedOne f)) = den f x := by
  have hman : defaultDivq f (sig f x * 256) (sig f (packedOne f) * 256) = (den f x).man := by
    rw [← den_man, ← den_man, den_packedOne_man, defaultDivq, Nat.mul_div_cancel _ (by positivity)]
  rw [divTriple_den, expb_packedOne, sgn_packedOne, Bool.xor_false, Nat.cast_ofNat, sub_add_cancel]
  exact congrArg (Triple.mk _ · _) hman

/-- Settles O44: what is renormalized is 1 as unpacked, and `x` as unpacked. -/
theorem defaultDivideBySelfAndOne : Obligations.DefaultDivideBySelfAndOne := by
  intro f x hx hzero
  have hone : (packedOne f).toNat < 2 ^ f.W := pack_lt f _ _ _ (by decide)
  constructor
  · rw [fdiv_of_nonzero _ hzero hzero, divTriple_default_self]
    exact renormalizerRestoresUnpacked f (packedOne f) hone (isZero_packedOne f)
  · calc fdiv Params.default f x (packedOne f)
        = renorm f (den f x) := by
          rw [fdiv_of_nonzero _ hzero (isZero_packedOne f), divTriple_default_packedOne]
      _ = _ := renormalizerRestoresUnpacked f x hx hzero

/-! ### The command -/

/-- Settles O41: the fields of the four words name FDIV, and a Single beside a Double is promoted by `widen`. -/
theorem floatDivideAnswer : Obligations.FloatDivideAnswer := fun A B s =>
  ⟨(decode_of_fields A B rfl rfl rfl).trans rfl, (decode_of_fields A B rfl rfl rfl).trans rfl,
   (decode_of_fields A B rfl rfl rfl).trans rfl, (decode_of_fields A B rfl rfl rfl).trans rfl,
   fun a b => exec_fdivS a b s,
   fun a b => widen_eq_shiftLeft a ▸ exec_fdivSD a b s,
   fun a b => widen_eq_shiftLeft b ▸ exec_fdivDS a b s,
   fun a b => exec_fdivD a b s⟩

end Sys2Proof.Machine
end

section
/-! Proofs of the comparator family's statements: the order of the tests, the magnitude word against the exact
magnitude, and the exactness of promotion. -/

namespace Sys2Proof.Machine

/-! ### The order of the tests -/

/-- Settles O47: each clause takes one way through the tests of `fgt`. -/
theorem comparatorProcedure : Obligations.ComparatorProcedure := by
  refine fun f a b => ⟨fun ha => ?_, fun ha hb => ?_, fun ha hb hs => ?_, fun ha hb hsa hsb => ?_,
    fun ha hb hsa hsb => ?_⟩
  · simp [fgt, ha]
  · simp [fgt, ha, hb]
  · simp [fgt, ha, hb, hs]
  · simp [fgt, ha, hb, hsa, hsb]
  · simp [fgt, ha, hb, hsa, hsb]

/-- `feq` on a zero asks whether the other operand is a zero (R123). -/
theorem feq_of_zero_left {f : Fmt} {a : Bus} (b : Bus) (ha : isZero f a = true) : feq f a b = isZero f b := by
  simp [feq, ha]

theorem feq_of_zero_right {f : Fmt} {a b : Bus} (ha : isZero f a = false) (hb : isZero f b = true) :
    feq f a b = false := by
  simp [feq, ha, hb]

theorem feq_of_nonzero {f : Fmt} {a b : Bus} (ha : isZero f a = false) (hb : isZero f b = false) :
    feq f a b = decide (a = b) := by
  simp [feq, ha, hb]

/-! ### Exact values as integers -/

/-- The magnitude of a nonzero value, in units of `2^-BIAS` (R27). -/
def magnitude (f : Fmt) (x : Bus) : Nat := sig f x * 2 ^ expb f x

/-- The exact value in units of `2^-BIAS`, an integer (R27). -/
def scaled (f : Fmt) (x : Bus) : Int :=
  if isZero f x then 0 else if sgn f x then -magnitude f x else magnitude f x

theorem magnitude_pos (f : Fmt) (x : Bus) : 0 < magnitude f x :=
  Nat.mul_pos (lt_of_lt_of_le (by positivity) (sig_ge f x)) (by positivity)

theorem scaled_of_zero {f : Fmt} {x : Bus} (h : isZero f x = true) : scaled f x = 0 := by
  simp [scaled, h]

theorem scaled_of_positive {f : Fmt} {x : Bus} (h : isZero f x = false) (hs : sgn f x = false) :
    scaled f x = magnitude f x := by
  simp [scaled, h, hs]

theorem scaled_of_negative {f : Fmt} {x : Bus} (h : isZero f x = false) (hs : sgn f x = true) :
    scaled f x = -magnitude f x := by
  simp [scaled, h, hs]

theorem natAbs_scaled {f : Fmt} {x : Bus} (h : isZero f x = false) : (scaled f x).natAbs = magnitude f x := by
  cases hs : sgn f x <;> simp [scaled, h, hs]

/-! The sign of the exact value is the sign bit's, but for a zero (R26). -/

theorem scaled_pos_iff (f : Fmt) (x : Bus) : 0 < scaled f x ↔ isZero f x = false ∧ sgn f x = false := by
  cases h : isZero f x <;> cases hs : sgn f x <;> simp [scaled, h, hs, magnitude_pos]

theorem scaled_neg_iff (f : Fmt) (x : Bus) : scaled f x < 0 ↔ isZero f x = false ∧ sgn f x = true := by
  cases h : isZero f x <;> cases hs : sgn f x <;> simp [scaled, h, hs, magnitude_pos]

theorem scaled_eq_zero_iff (f : Fmt) (x : Bus) : scaled f x = 0 ↔ isZero f x = true := by
  cases h : isZero f x <;> cases hs : sgn f x <;> simp [scaled, h, hs, (magnitude_pos f x).ne']

theorem val_eq_scaled (f : Fmt) (x : Bus) : val f x = scaled f x * (2 : ℚ) ^ (-(f.bias : ℤ)) := by
  cases h : isZero f x
  · have hexp : (2 : ℚ) ^ ((expb f x : ℤ) - f.bias) = 2 ^ expb f x * 2 ^ (-(f.bias : ℤ)) := by
      rw [sub_eq_add_neg, zpow_add₀ two_ne_zero, zpow_natCast]
    cases hs : sgn f x
    · rw [scaled_of_positive h hs]
      simp [val, h, hs, hexp, signFactor, magnitude, mul_assoc]
    · rw [scaled_of_negative h hs]
      simp [val, h, hs, hexp, signFactor, magnitude, mul_assoc]
  · simp [val, scaled_of_zero h, h]

theorem val_lt_val_iff (f : Fmt) (a b : Bus) : val f a < val f b ↔ scaled f a < scaled f b := by
  rw [val_eq_scaled, val_eq_scaled, mul_lt_mul_iff_of_pos_right (by positivity), Int.cast_lt]

theorem val_eq_val_iff (f : Fmt) (a b : Bus) : val f a = val f b ↔ scaled f a = scaled f b := by
  rw [val_eq_scaled, val_eq_scaled, mul_left_inj' (by positivity), Int.cast_inj]

/-! ### The magnitude word (R121) -/

/-- Clearing the sign bit is inverting it when it is set. -/
theorem absw_eq (f : Fmt) (x : Bus) : absw f x = if sgn f x then fneg f x else x := by
  have hclear (m : Bus) : x &&& ~~~m = x ^^^ (x &&& m) := by
    ext i hi
    simp only [BitVec.getElem_and, BitVec.getElem_not, BitVec.getElem_xor]
    cases x[i] <;> simp
  have hbit : BitVec.ofNat 64 (2 ^ (f.W - 9)) = BitVec.twoPow 64 (f.W - 9) := by cases f <;> rfl
  rw [absw, hclear, hbit, BitVec.and_twoPow, fneg, hbit, sgn]
  split
  · rfl
  · exact BitVec.xor_zero

theorem frac_fneg (f : Fmt) (x : Bus) : frac f (fneg f x) = frac f x := Nat.add_left_cancel (sig_fneg f x)

/-- A packed value with sign bit 0 is its exponent byte above its fraction (R23). -/
theorem toNat_of_sgn_false (f : Fmt) {x : Bus} (hx : x.toNat < 2 ^ f.W) (hs : sgn f x = false) :
    x.toNat = expb f x * 2 ^ (f.W - 8) + frac f x := by
  have h := pack_toNat f (expb f x) (sig f x) (sgn f x) (expb_lt f x)
  rw [pack_fields f x hx, hs] at h
  simpa [sig, Nat.mod_eq_of_lt (frac_lt f x)] using h

/-- The magnitude word is the exponent byte above the fraction, whatever the sign. -/
theorem absw_toNat (f : Fmt) {x : Bus} (hx : x.toNat < 2 ^ f.W) :
    (absw f x).toNat = expb f x * 2 ^ (f.W - 8) + frac f x := by
  rw [absw_eq]
  split
  · next hs => rw [toNat_of_sgn_false f (fneg_lt f x hx) (by simp [hs]), expb_fneg, frac_fneg]
  · next hs => exact toNat_of_sgn_false f hx (by simpa using hs)

/-- Magnitude words are ordered by the exponent byte, then by the significand. -/
theorem absw_lt_absw_iff_lex (f : Fmt) {a b : Bus} (ha : a.toNat < 2 ^ f.W) (hb : b.toNat < 2 ^ f.W) :
    (absw f a).toNat < (absw f b).toNat ↔ expb f a < expb f b ∨ expb f a = expb f b ∧ sig f a < sig f b := by
  have hfa := frac_lt f a
  have hfb := frac_lt f b
  rw [absw_toNat f ha, absw_toNat f hb, sig, sig]
  cases f <;> simp only [Fmt.M, Fmt.W] at * <;> omega

/-- A significand is below twice any other, so the next exponent outweighs it. -/
theorem magnitude_lt_of_expb_lt {f : Fmt} {a b : Bus} (h : expb f a < expb f b) : magnitude f a < magnitude f b := by
  have hsig : sig f a < 2 * sig f b := by
    have ha := sig_lt f a
    have hb := sig_ge f b
    have hM := two_pow_M f
    omega
  calc sig f a * 2 ^ expb f a
      < 2 * sig f b * 2 ^ expb f a := Nat.mul_lt_mul_of_pos_right hsig (by positivity)
    _ = sig f b * 2 ^ (expb f a + 1) := by ring
    _ ≤ sig f b * 2 ^ expb f b := Nat.mul_le_mul_left _ (Nat.pow_le_pow_right two_pos h)

/-- Magnitudes are ordered by the exponent byte, then by the significand. -/
theorem magnitude_lt_magnitude_iff_lex (f : Fmt) (a b : Bus) :
    magnitude f a < magnitude f b ↔ expb f a < expb f b ∨ expb f a = expb f b ∧ sig f a < sig f b := by
  obtain hlt | heq | hgt := lt_trichotomy (expb f a) (expb f b)
  · simp [hlt, magnitude_lt_of_expb_lt hlt]
  · simp [magnitude, heq]
  · simp [hgt.not_gt, hgt.ne', (magnitude_lt_of_expb_lt hgt).not_gt]

/-- R121: magnitude words order nonzero values as their exact magnitudes do. -/
theorem absw_lt_absw_iff (f : Fmt) {a b : Bus} (ha : a.toNat < 2 ^ f.W) (hb : b.toNat < 2 ^ f.W) :
    (absw f a).toNat < (absw f b).toNat ↔ magnitude f a < magnitude f b :=
  (absw_lt_absw_iff_lex f ha hb).trans (magnitude_lt_magnitude_iff_lex f a b).symm

/-- Distinct packed values of one sign have distinct magnitudes. -/
theorem eq_of_magnitude_eq {f : Fmt} {a b : Bus} (ha : a.toNat < 2 ^ f.W) (hb : b.toNat < 2 ^ f.W)
    (hs : sgn f a = sgn f b) (h : magnitude f a = magnitude f b) : a = b := by
  have hab := (magnitude_lt_magnitude_iff_lex f a b).not.1 h.not_lt
  have hba := (magnitude_lt_magnitude_iff_lex f b a).not.1 h.not_gt
  have hexp : expb f a = expb f b := by omega
  have hsig : sig f a = sig f b := by omega
  rw [← pack_fields f a ha, ← pack_fields f b hb, hexp, hsig, hs]

/-- Distinct nonzero packed values have distinct exact values (R124). -/
theorem eq_of_scaled_eq {f : Fmt} {a b : Bus} (ha : a.toNat < 2 ^ f.W) (hb : b.toNat < 2 ^ f.W)
    (hza : isZero f a = false) (hzb : isZero f b = false) (h : scaled f a = scaled f b) : a = b := by
  have hs : sgn f a = sgn f b := by
    have hneg := scaled_neg_iff f b
    rw [← h, scaled_neg_iff f a] at hneg
    simpa [hza, hzb] using hneg
  have hm : magnitude f a = magnitude f b := by rw [← natAbs_scaled hza, ← natAbs_scaled hzb, h]
  exact eq_of_magnitude_eq ha hb hs hm

/-! ### Comparison of packed values (R124) -/

/-- `fgt` is the order of the exact values: its test order takes each pair of signs and zeros apart (R122). -/
theorem fgt_iff (f : Fmt) {a b : Bus} (ha : a.toNat < 2 ^ f.W) (hb : b.toNat < 2 ^ f.W) :
    fgt f a b = true ↔ val f b < val f a := by
  obtain ⟨hzeroLeft, hzeroRight, hsigns, hpositive, hnegative⟩ := comparatorProcedure f a b
  have hma := magnitude_pos f a
  have hmb := magnitude_pos f b
  rw [val_lt_val_iff]
  cases hza : isZero f a
  case true => rw [hzeroLeft hza, scaled_of_zero hza, scaled_neg_iff]
  case false =>
    cases hzb : isZero f b
    case true => simp [hzeroRight hza hzb, scaled_of_zero hzb, scaled_pos_iff, hza]
    case false =>
      cases hsa : sgn f a <;> cases hsb : sgn f b
      case false.false =>
        rw [hpositive hza hzb hsa hsb, absw_lt_absw_iff f hb ha, scaled_of_positive hza hsa,
          scaled_of_positive hzb hsb, Int.ofNat_lt]
      case false.true =>
        rw [hsigns hza hzb (by simp [hsa, hsb]), scaled_of_positive hza hsa, scaled_of_negative hzb hsb]
        exact iff_of_true hsb (by omega)
      case true.false =>
        rw [hsigns hza hzb (by simp [hsa, hsb]), scaled_of_negative hza hsa, scaled_of_positive hzb hsb]
        exact iff_of_false (by simp [hsb]) (by omega)
      case true.true =>
        rw [hnegative hza hzb hsa hsb, absw_lt_absw_iff f ha hb, scaled_of_negative hza hsa,
          scaled_of_negative hzb hsb, neg_lt_neg_iff, Int.ofNat_lt]

/-- `feq` is the equality of the exact values: nonzero encodings are unique, zeros are not (R123). -/
theorem feq_iff (f : Fmt) {a b : Bus} (ha : a.toNat < 2 ^ f.W) (hb : b.toNat < 2 ^ f.W) :
    feq f a b = true ↔ val f a = val f b := by
  rw [val_eq_val_iff]
  cases hza : isZero f a
  case true => rw [feq_of_zero_left b hza, scaled_of_zero hza, eq_comm (a := (0 : Int)), scaled_eq_zero_iff]
  case false =>
    cases hzb : isZero f b
    case true => simp [feq_of_zero_right hza hzb, scaled_of_zero hzb, scaled_eq_zero_iff, hza]
    case false =>
      rw [feq_of_nonzero hza hzb, decide_eq_true_iff]
      exact ⟨congrArg (scaled f), eq_of_scaled_eq ha hb hza hzb⟩

/-! ### Promotion is exact (R45) -/

theorem val_zero (f : Fmt) : val f (zero f) = 0 := by
  have h : isZero f (zero f) = true := by cases f <;> rfl
  simp [val, h]

/-- A packed value with a nonzero exponent byte and a normalized significand stands for what was packed (R27, R30). -/
theorem val_pack (f : Fmt) {e s : Nat} (neg : Bool) (he0 : e ≠ 0) (he : e < 256) (h1 : 2 ^ (f.M - 1) ≤ s)
    (h2 : s < 2 ^ f.M) :
    val f (pack f e s neg) = signFactor neg * s * (2 : ℚ) ^ ((e : ℤ) - (f.bias : ℤ)) := by
  have hz : isZero f (pack f e s neg) = false := by rwa [isZero_eq_false, expb_pack f e s neg he]
  simp [val, hz, sgn_pack f e s neg he, sig_pack f e s neg he h1 h2, expb_pack f e s neg he]

/-- The left shift and the exponent byte of R130 cancel. -/
theorem val_i2f (f : Fmt) (n : IntBits) : val f (i2f f n) = n.toInt := by
  by_cases h0 : n.toInt = 0
  · rw [i2f, if_pos h0, val_zero, h0, Int.cast_zero]
  · obtain ⟨hm, hle, hlog⟩ := natAbs_bounds n h0
    have hlt : n.toInt.natAbs < 2 ^ f.M := lt_of_le_of_lt hle (by cases f <;> decide)
    obtain ⟨h1, h2⟩ := shifted_magnitude f _ hm hlt
    have hexp : ((129 + n.toInt.natAbs.log2 : Nat) : ℤ) - f.bias = -(f.M - 1 - n.toInt.natAbs.log2 : Nat) := by
      cases f <;> simp only [Fmt.bias, Fmt.M] <;> omega
    have hsign : signFactor (decide (n.toInt < 0)) * (n.toInt.natAbs : ℚ) = n.toInt := by
      obtain hneg | hpos := lt_or_ge n.toInt 0
      · simp [signFactor, hneg, abs_of_neg]
      · simp [signFactor, hpos, hpos.not_gt, abs_of_nonneg]
    rw [i2f_eq f n h0, val_pack f _ (by omega) (by omega) h1 h2, hexp, Nat.shiftLeft_eq, Nat.cast_mul, Nat.cast_pow,
      Nat.cast_ofNat, ← mul_assoc, hsign, zpow_neg, zpow_natCast, mul_inv_cancel_right₀ (by positivity)]

/-- Widening scales the significand by the `2^32` between the two formats' biases (R134). -/
theorem val_widen (x : SngBits) : val .dbl (widen x) = val .sng (onBus x) := by
  have hz : isZero .dbl (widen x) = isZero .sng (onBus x) := by rw [isZero, expb_widen, isZero]
  have hsig : (sig .dbl (widen x) : ℚ) = sig .sng (onBus x) * 2 ^ (32 : ℤ) := by
    simp only [sig, frac_widen, Fmt.M]
    push_cast
    ring
  have hexp : (32 : ℤ) + ((expb .sng (onBus x) : ℤ) - Fmt.dbl.bias) = (expb .sng (onBus x) : ℤ) - Fmt.sng.bias := by
    simp only [Fmt.bias]
    omega
  simp only [val, hz, expb_widen, sgn_widen, hsig]
  rw [← mul_assoc, mul_assoc _ ((2 : ℚ) ^ (32 : ℤ)), ← zpow_add₀ two_ne_zero, hexp]

/-- A promoted operand has the operand's own value. -/
theorem val_conv (x : Operand) (w : Fmt) (h : x.tag = .dbl → w = .dbl) : val w (conv w x) = x.val := by
  cases x with
  | int n => exact val_i2f w n
  | sng x =>
    cases w
    · rfl
    · exact val_widen x
  | dbl x =>
    obtain rfl := h rfl
    rfl

theorem val_prom (x y : Operand) :
    val (prom x y).fmt (prom x y).a = x.val ∧ val (prom x y).fmt (prom x y).b = y.val := by
  constructor
  · exact val_conv x _ fun h => by simp [prom, workFmt, h]
  · exact val_conv y _ fun h => by simp [prom, workFmt, h]

/-! ### The commands -/

/-- R124: FGT on operands of any types completes with the order of their values. -/
theorem complete_floatGreater (s : State) (x y : Operand) :
    s.complete (floatGreater x y) = s.answered 0b00 0 false false (decide (x.val > y.val)) := by
  obtain ⟨hx, hy⟩ := val_prom x y
  have h := fgt_iff (prom x y).fmt (prom_lt x y).1 (prom_lt x y).2
  rw [hx, hy] at h
  rw [floatGreater, Bool.eq_iff_iff.2 (h.trans decide_eq_true_iff.symm), complete_compared]

/-- R124: FEQ on operands of any types completes with the equality of their values. -/
theorem complete_floatEqual (s : State) (x y : Operand) :
    s.complete (floatEqual x y) = s.answered 0b00 0 false false (decide (x.val = y.val)) := by
  obtain ⟨hx, hy⟩ := val_prom x y
  have h := feq_iff (prom x y).fmt (prom_lt x y).1 (prom_lt x y).2
  rw [hx, hy] at h
  rw [floatEqual, Bool.eq_iff_iff.2 (h.trans decide_eq_true_iff.symm), complete_compared]

/-- Settles O45: the fields of the eight words name FGT, and every form is `floatGreater` on its operands. -/
theorem floatGreaterIsExact : Obligations.FloatGreaterIsExact :=
  ⟨fun A B =>
    ⟨(decode_of_fields A B rfl rfl rfl).trans rfl, (decode_of_fields A B rfl rfl rfl).trans rfl,
     (decode_of_fields A B rfl rfl rfl).trans rfl, (decode_of_fields A B rfl rfl rfl).trans rfl,
     (decode_of_fields A B rfl rfl rfl).trans rfl, (decode_of_fields A B rfl rfl rfl).trans rfl,
     (decode_of_fields A B rfl rfl rfl).trans rfl, (decode_of_fields A B rfl rfl rfl).trans rfl⟩,
   fun s =>
    ⟨fun a b => by rw [exec_fgtIS, complete_floatGreater], fun a b => by rw [exec_fgtID, complete_floatGreater],
     fun a b => by rw [exec_fgtSI, complete_floatGreater], fun a b => by rw [exec_fgtS, complete_floatGreater],
     fun a b => by rw [exec_fgtSD, complete_floatGreater], fun a b => by rw [exec_fgtDI, complete_floatGreater],
     fun a b => by rw [exec_fgtDS, complete_floatGreater], fun a b => by rw [exec_fgtD, complete_floatGreater]⟩⟩

/-- Settles O46: the fields of the eight words name FEQ, and every form is `floatEqual` on its operands. -/
theorem floatEqualIsExact : Obligations.FloatEqualIsExact :=
  ⟨fun A B =>
    ⟨(decode_of_fields A B rfl rfl rfl).trans rfl, (decode_of_fields A B rfl rfl rfl).trans rfl,
     (decode_of_fields A B rfl rfl rfl).trans rfl, (decode_of_fields A B rfl rfl rfl).trans rfl,
     (decode_of_fields A B rfl rfl rfl).trans rfl, (decode_of_fields A B rfl rfl rfl).trans rfl,
     (decode_of_fields A B rfl rfl rfl).trans rfl, (decode_of_fields A B rfl rfl rfl).trans rfl⟩,
   fun s =>
    ⟨fun a b => by rw [exec_feqIS, complete_floatEqual], fun a b => by rw [exec_feqID, complete_floatEqual],
     fun a b => by rw [exec_feqSI, complete_floatEqual], fun a b => by rw [exec_feqS, complete_floatEqual],
     fun a b => by rw [exec_feqSD, complete_floatEqual], fun a b => by rw [exec_feqDI, complete_floatEqual],
     fun a b => by rw [exec_feqDS, complete_floatEqual], fun a b => by rw [exec_feqD, complete_floatEqual]⟩⟩

end Sys2Proof.Machine
end

section
/-! Proofs of the converter family's statements: rounding to the nearest integer as `round` of the exact magnitude, the
exact round trip of an Integer, and the triple of D2S in closed form. -/

namespace Sys2Proof.Machine

/-! ### The exact conversions I2F and S2D -/

/-- Settles O48: `val_i2f` is exactness, and the exponent byte is the one that `i2f` packs. -/
theorem intToFloatIsExact : Obligations.IntToFloatIsExact := by
  intro A B s n
  refine ⟨(decode_of_fields A B rfl rfl rfl).trans rfl, (decode_of_fields A B rfl rfl rfl).trans rfl, exec_i2fS n s,
    exec_i2fD n s, fun f => ⟨val_i2f f n, fun h0 => ?_, fun h0 => ?_⟩⟩
  · rw [h0]
    rfl
  · have hn : n.toInt ≠ 0 := mt (toInt_eq_zero_iff n).1 h0
    have hlog := (natAbs_bounds n hn).2.2
    rw [i2f_eq f n hn, expb_pack f _ _ _ (by omega)]

theorem singleToDouble_of_zero {x : SngBits} (h : isZero .sng (onBus x) = true) :
    singleToDouble x = result .dbl (zero .dbl) := if_pos h

theorem singleToDouble_of_nonzero {x : SngBits} (h : isZero .sng (onBus x) = false) :
    singleToDouble x = result .dbl (widen x) := if_neg (by simp [h])

theorem val_of_zero {f : Fmt} {x : Bus} (h : isZero f x = true) : val f x = 0 := if_pos h

/-- Settles O52: widening keeps the value, and the canonical zero has the value of every zero. -/
theorem singleToDoubleIsExact : Obligations.SingleToDoubleIsExact := by
  intro A B s a d
  obtain ⟨hexec, hval⟩ : exec (.s2d a) s = .next (s.answered 0b10 d false false false) ∧
      val .dbl d = (Operand.sng a).val := by
    cases hz : isZero .sng (onBus a)
    · have hd : d = widen a := by
        rw [widen_eq_shiftLeft]
        exact if_neg (mt (isZero_onBus_iff a).2 (by simp [hz]))
      rw [exec_s2d, singleToDouble_of_nonzero hz, hd]
      exact ⟨rfl, val_widen a⟩
    · have hd : d = zero .dbl := if_pos ((isZero_onBus_iff a).1 hz)
      rw [exec_s2d, singleToDouble_of_zero hz, hd]
      exact ⟨rfl, (val_zero .dbl).trans (val_of_zero hz).symm⟩
  exact ⟨(decode_of_fields A B rfl rfl rfl).trans rfl, hexec, hval, widen_eq_shiftLeft a, val_widen a⟩

/-! ### Rounding to the nearest integer (R132) -/

/-- On a non-negative number `round`, which takes a tie upwards, takes it away from zero. -/
theorem nearestAway_round {q : ℚ} (hq : 0 ≤ q) : NearestAway q (round q) := by
  obtain hlt | htie := (abs_sub_round q).lt_or_eq
  · exact .inl hlt
  · refine .inr ⟨htie, ?_⟩
    have hfloor : q + 1 / 2 < round q + 1 := by
      rw [round_eq]
      exact Int.lt_floor_add_one _
    have hup : q < round q := by
      obtain h | h := (abs_eq one_half_pos.le).1 htie <;> linarith
    rw [abs_of_nonneg hq]
    exact hup.trans_le (le_abs_self _)

theorem NearestAway.neg {q : ℚ} {n : ℤ} (h : NearestAway q n) : NearestAway (-q) (-n) := by
  have hdist : |-q - ((-n : ℤ) : ℚ)| = |q - n| := by rw [Int.cast_neg, ← neg_sub', abs_neg]
  rw [NearestAway, hdist, Int.cast_neg, abs_neg, abs_neg]
  exact h

/-- An integer is nearest to itself alone. -/
theorem NearestAway.eq_of_intCast {m n : ℤ} (h : NearestAway m n) : n = m := by
  have hle : |(m : ℚ) - n| ≤ 1 / 2 := h.elim le_of_lt fun htie => htie.1.le
  have hlt : |m - n| < 1 := by
    have : ((|m - n| : ℤ) : ℚ) < 1 := by push_cast; linarith
    exact_mod_cast this
  exact (sub_eq_zero.1 (Int.abs_lt_one_iff.1 hlt)).symm

/-- One fraction bit is kept; adding 1 to it and halving rounds to the nearest integer, a tie upwards (R132). -/
theorem round_div_two_pow (sig k : Nat) : round ((sig : ℚ) / 2 ^ (k + 1)) = ((sig >>> k + 1) >>> 1 : Nat) := by
  have hhalf : (sig : ℚ) / 2 ^ (k + 1) + 1 / 2 = ((sig + 2 ^ k : Nat) : ℚ) / (2 ^ (k + 1) : Nat) := by
    push_cast
    field_simp
    ring
  rw [round_eq, hhalf, Rat.floor_natCast_div_natCast, Nat.shiftRight_eq_div_pow, Nat.shiftRight_eq_div_pow,
    ← Nat.add_div_right _ (Nat.two_pow_pos k), Nat.div_div_eq_div_mul, pow_succ, pow_one]
  rfl

/-- The shifts of R132 round the magnitude `sig * 2^e`. -/
theorem roundMagnitude_eq_round (sig : Nat) (e : Int) :
    (roundMagnitude sig e : Int) = round ((sig : ℚ) * 2 ^ e) := by
  obtain ⟨k, rfl | rfl⟩ : ∃ k : Nat, e = k ∨ e = -(k + 1 : Nat) := by
    cases e with
    | ofNat k => exact ⟨k, .inl rfl⟩
    | negSucc k => exact ⟨k, .inr rfl⟩
  · have hexact : (sig : ℚ) * 2 ^ (k : ℤ) = (sig <<< k : Nat) := by
      rw [Nat.shiftLeft_eq, zpow_natCast]
      push_cast
      rfl
    rw [hexact, round_natCast, roundMagnitude, if_pos (by omega), Int.toNat_natCast]
  · have hk : (-(-((k + 1 : Nat) : ℤ)) - 1).toNat = k := by omega
    rw [zpow_neg, zpow_natCast, ← div_eq_mul_inv, round_div_two_pow, roundMagnitude, if_neg (by omega), hk]

/-- `fround` rounds the exact value: the magnitude first, then the sign. -/
theorem nearestAway_fround (f : Fmt) (x : Bus) : NearestAway (val f x) (fround f x) := by
  cases hz : isZero f x
  case true =>
    have h0 : fround f x = 0 := if_pos hz
    rw [val_of_zero hz, h0]
    exact .inl (by norm_num)
  case false =>
    have hmagnitude := nearestAway_round (q := (sig f x : ℚ) * 2 ^ ((expb f x : Int) - f.bias)) (by positivity)
    rw [← roundMagnitude_eq_round] at hmagnitude
    rw [fround_eq f x hz]
    cases hs : sgn f x
    · simpa [val, hz, hs, signFactor] using hmagnitude
    · simpa [val, hz, hs, signFactor] using hmagnitude.neg

/-- R61, C5: the unit after an integer result in unsigned mode. -/
theorem complete_encInt_unsigned (s : State) (z : Int) :
    s.complete (encInt z true) =
      if z > 65535 then s.answered 0b00 0x7FFF true false false
      else if z < -32768 then s.answered 0b00 0x8000 true false false
      else s.answered 0b00 (u16 z) false false false := by
  rw [encInt, apply_ite s.complete, apply_ite s.complete]
  rfl

/-- Settles O49: the integer is `fround` of the operand, which the signed range check encodes. -/
theorem floatToIntSigned : Obligations.FloatToIntSigned := by
  intro A B s a
  refine ⟨(decode_of_fields A B rfl rfl rfl).trans rfl, (decode_of_fields A B rfl rfl rfl).trans rfl,
    ⟨_, nearestAway_fround .sng (onBus a), ?_⟩, ⟨_, nearestAway_fround .dbl A, ?_⟩⟩
  · exact (exec_f2iS a s).trans (congrArg _ (complete_encInt_signed s _))
  · exact (exec_f2iD A s).trans (congrArg _ (complete_encInt_signed s _))

/-- Settles O50: the same integer, which unsigned mode encodes. -/
theorem floatToIntUnsigned : Obligations.FloatToIntUnsigned := by
  intro A B s a
  refine ⟨(decode_of_fields A B rfl rfl rfl).trans rfl, (decode_of_fields A B rfl rfl rfl).trans rfl,
    ⟨_, nearestAway_fround .sng (onBus a), ?_⟩, ⟨_, nearestAway_fround .dbl A, ?_⟩⟩
  · exact (exec_f2iuS a s).trans (congrArg _ (complete_encInt_unsigned s _))
  · exact (exec_f2iuD A s).trans (congrArg _ (complete_encInt_unsigned s _))

theorem fround_i2f (f : Fmt) (n : IntBits) : fround f (i2f f n) = n.toInt := by
  have h := nearestAway_fround f (i2f f n)
  rw [val_i2f] at h
  exact h.eq_of_intCast

theorem complete_floatToInt_i2f (s : State) (f : Fmt) (n : IntBits) :
    s.complete (floatToInt f (i2f f n) false) = s.answered 0b00 (n.setWidth 64) false false false := by
  rw [floatToInt, fround_i2f, complete_encInt_of_fits, u16_toInt]

/-- Settles O51: `i2f` is exact, so rounding gives the Integer back, and it is in range. -/
theorem integerSurvivesFloatRoundTrip : Obligations.IntegerSurvivesFloatRoundTrip := by
  intro n s
  have hbus : onBus ((i2f .sng n).extractLsb' 0 32) = i2f .sng n :=
    lowBits_of_lt (conv_lt (.int n) .sng (by simp [Operand.tag]))
  constructor
  · rw [exec_f2iS, hbus, complete_floatToInt_i2f]
  · rw [exec_f2iD, complete_floatToInt_i2f]

/-! ### Narrowing (R135) -/

theorem doubleToSingle_of_zero {x : DblBits} (h : isZero .dbl x = true) :
    doubleToSingle x = result .sng (zero .sng) := if_pos h

theorem doubleToSingle_of_nonzero {x : DblBits} (h : isZero .dbl x = false) :
    doubleToSingle x = renorm .sng (narrowTriple x) := if_neg (by simp [h])

/-- A normalized mantissa is not shifted, so `renorm` rounds and checks the range (R81). -/
theorem renorm_of_normalized (f : Fmt) {t : Triple} (h : Normalized f t.man) :
    renorm f t = rangeCheck f (roundSig f t) := by
  rw [renorm, if_neg (normalized_pos h).ne', normalize_of_normalized f t h]

theorem rangeCheck_of_gt (f : Fmt) {e : Int} (m : Nat) (neg : Bool) (h : 255 < e) :
    rangeCheck f ⟨e, m, neg⟩ = signalOverflow f.tag (maxMag f neg) := if_pos h

theorem rangeCheck_of_mem (f : Fmt) {e : Nat} (m : Nat) (neg : Bool) (h1 : 1 ≤ e) (h2 : e < 256) :
    rangeCheck f ⟨e, m, neg⟩ = result f.tag (pack f e m neg) := by
  rw [rangeCheck, if_neg (by dsimp only; omega), if_neg (by dsimp only; omega), Int.toNat_natCast]

/-- A packed Single whose significand has its implicit bit, as a sum of its fields (R30). -/
theorem pack_sng_eq {e s : Nat} (neg : Bool) (he : e < 256) (h1 : 2 ^ 23 ≤ s) (h2 : s < 2 ^ 24) :
    pack .sng e s neg = BitVec.ofNat 64 (e * 2 ^ 24 + neg.toNat * 2 ^ 23 + (s - 2 ^ 23)) := by
  have hfrac : s % 2 ^ (Fmt.sng.M - 1) = s - 2 ^ 23 := by
    simp only [Fmt.M]
    omega
  calc pack .sng e s neg
      = BitVec.ofNat 64 (pack .sng e s neg).toNat := by simp
    _ = BitVec.ofNat 64 (e * 2 ^ 24 + neg.toNat * 2 ^ 23 + (s - 2 ^ 23)) := by
        rw [pack_toNat .sng e s neg he, hfrac]
        rfl

/-- The unit after rounding a significand `kept` on a guard byte `g` at an exponent byte that is not 0: a carry out of
the significand is the one way to an exponent above 255. -/
theorem complete_renorm_sng (s : State) {e kept g up : Nat} (neg : Bool) (he0 : e ≠ 0) (he : e < 256)
    (h1 : 2 ^ 23 ≤ kept) (h2 : kept < 2 ^ 24) (hg : g < 256)
    (hup : up = if g > 128 ∨ (g = 128 ∧ kept % 2 = 1) then 1 else 0) :
    s.complete (renorm .sng ⟨e, kept * 256 + g, neg⟩) =
      if kept + up < 2 ^ 24 then
        s.answered 0b01 (BitVec.ofNat 64 (e * 2 ^ 24 + neg.toNat * 2 ^ 23 + (kept + up - 2 ^ 23))) false false false
      else if e = 255 then
        s.answered 0b01 (BitVec.ofNat 64 (255 * 2 ^ 24 + neg.toNat * 2 ^ 23 + (2 ^ 23 - 1))) true false false
      else s.answered 0b01 (BitVec.ofNat 64 ((e + 1) * 2 ^ 24 + neg.toNat * 2 ^ 23)) false false false := by
  have hn : Normalized .sng (kept * 256 + g) := by
    simp only [Normalized, Fmt.W]
    omega
  have hsig : (kept * 256 + g) / 256 = kept := by omega
  have hguard : (kept * 256 + g) % 256 = g := by omega
  have hrounds : (roundsUp (kept * 256 + g)).toNat = up := by rw [toNat_roundsUp, hsig, hguard, hup]
  have hle := roundedSig_le .sng hn
  have hround := roundSig_eq .sng e (kept * 256 + g) neg hn
  rw [hsig, hrounds] at hle hround
  rw [renorm_of_normalized .sng hn, hround]
  by_cases hcarry : kept + up < 2 ^ 24
  · have hne : kept + up ≠ 2 ^ Fmt.sng.M := hcarry.ne
    rw [if_pos hcarry, if_neg hne, if_neg hne, add_zero, rangeCheck_of_mem .sng _ neg (Nat.pos_of_ne_zero he0) he,
      pack_sng_eq neg he (by omega) hcarry]
    rfl
  · have heq : kept + up = 2 ^ Fmt.sng.M := hle.antisymm (not_lt.1 hcarry)
    rw [if_neg hcarry, if_pos heq, if_pos heq]
    by_cases hmax : e = 255
    · rw [if_pos hmax, rangeCheck_of_gt .sng _ neg (by omega), maxMag_eq_pack,
        pack_sng_eq neg (by decide) (by decide) (by decide)]
      rfl
    · have hfrac : 2 ^ (Fmt.sng.M - 1) - 2 ^ 23 = 0 := rfl
      rw [if_neg hmax, ← Nat.cast_succ, rangeCheck_of_mem .sng _ neg (by omega) (by omega),
        pack_sng_eq neg (by omega) (by decide) (by decide), hfrac, add_zero]
      rfl

theorem narrowTriple_eq (x : DblBits) :
    narrowTriple x =
      ⟨(x.toNat / 2 ^ 56 : Nat), (2 ^ 23 + x.toNat / 2 ^ 32 % 2 ^ 23) * 256 + x.toNat / 2 ^ 24 % 256,
        x.getLsbD 55⟩ := by
  rw [← narrowTriple_exp, ← narrowTriple_man, ← narrowTriple_neg]

/-- Settles O53: byte 3 is the guard byte of the triple that is renormalized, and bytes 0 to 2 are no part of it. -/
theorem doubleToSingleRounds : Obligations.DoubleToSingleRounds := by
  intro A B s e neg kept g up
  refine ⟨(decode_of_fields A B rfl rfl rfl).trans rfl, ?_⟩
  have he : expb .dbl A = e := expb_dbl A
  have hfrac : A.toNat / 2 ^ 32 % 2 ^ 23 < 2 ^ 23 := Nat.mod_lt _ (by decide)
  rw [exec_d2s]
  by_cases h0 : e = 0
  · rw [if_pos h0, doubleToSingle_of_zero ((isZero_dbl_iff A).2 h0)]
    rfl
  · rw [if_neg h0, doubleToSingle_of_nonzero ((isZero_eq_false .dbl A).2 (he ▸ h0)), narrowTriple_eq,
      complete_renorm_sng s neg h0 (he ▸ expb_lt .dbl A) (Nat.le_add_right _ _) (Nat.add_lt_add_left hfrac _)
        (Nat.mod_lt _ (by decide)) rfl]

/-- The bytes that narrowing keeps of a widened Single are those that unpacking it reads, with a guard byte of 0. -/
theorem narrowTriple_widen (x : SngBits) : narrowTriple (widen x) = den .sng (onBus x) := by
  have hx := x.isLt
  have hexp : (widen x).toNat / 2 ^ 56 = expb .sng (onBus x) := by
    rw [widen_toNat, expb_onBus]
    omega
  have hman : (2 ^ 23 + (widen x).toNat / 2 ^ 32 % 2 ^ 23) * 256 + (widen x).toNat / 2 ^ 24 % 256 =
      (den .sng (onBus x)).man := by
    rw [widen_toNat, den_man, sig, frac, onBus_toNat (n := 32) (by decide)]
    simp only [Fmt.M]
    omega
  have hneg : (widen x).getLsbD 55 = sgn .sng (onBus x) := sgn_widen x
  rw [narrowTriple_eq, hexp, hman, hneg]
  rfl

/-- Settles O54: narrowing renormalizes the Single as unpacked, which R86 gives back. -/
theorem narrowRestoresWidened : Obligations.NarrowRestoresWidened := by
  intro x s hx
  have hz : isZero .sng (onBus x) = false := by rwa [isZero_eq_false, expb_onBus]
  have hzw : isZero .dbl (widen x) = false := by rwa [isZero, expb_widen]
  have hlt : (onBus x).toNat < 2 ^ Fmt.sng.W := (onBus_toNat (by decide) x).trans_lt x.isLt
  rw [← widen_eq_shiftLeft, exec_d2s, doubleToSingle_of_nonzero hzw, narrowTriple_widen,
    renormalizerRestoresUnpacked .sng _ hlt hz]
  rfl

end Sys2Proof.Machine
end

section
/-! Proofs of the exception family's statements: which inputs let a step end in a next state, and which flags each
command can set. -/

namespace Sys2Proof.Machine

/-! ### Where a step stops -/

/-- A reset, a read of a valid latch and a clash aside, the unit goes on: it completes the command in progress, or
takes the host's input. -/
theorem step_of_undisturbed {s : State} (hu : s.undisturbed = true) : ∃ s', step s = .next s' := by
  cases hc : s.inProgress with
  | some c =>
    obtain ⟨l, -, -, hrun⟩ := runCommand_completes c
    exact ⟨_, (step_inProgress hc hu).trans (hrun s)⟩
  | none =>
    match hh : s.host with
    | [] => exact ⟨s, by simp [step, hh, hc]⟩
    | .issue _ :: _ => exact ⟨_, step_issue_of_idle hc hh⟩
    | .waitReady :: _ => exact ⟨_, step_waitReady_of_idle hc hh⟩
    | .reset :: _ | .read :: _ | .contend _ _ :: _ => simp [State.undisturbed, hh] at hu

theorem stops_of_undisturbed {s : State} (hu : s.undisturbed = true) : s.stops = false := by
  unfold State.undisturbed at hu
  split at hu <;> simp_all [State.stops]

theorem step_reset {s : State} {rest : List HostInput} (h : s.host = .reset :: rest) :
    step s = .next (s.applyReset rest) := by
  simp only [step, h]

/-- Settles O7: each case of `step_cases` is no stop, and an input that is no stop is a reset, a read of a valid latch
or leaves the unit undisturbed. -/
theorem onlyTheHostStopsTheUnit : Obligations.OnlyTheHostStopsTheUnit := by
  intro s
  constructor
  · rintro ⟨s', hstep⟩
    obtain ⟨_, hh, -⟩ | ⟨_, hh, hvalid, -⟩ | ⟨_, -, hu, -⟩ | ⟨_, _, -, hh, -⟩ | ⟨_, -, hh, -⟩ | ⟨-, hh, -⟩ :=
      step_cases hstep
    · simp [State.stops, hh] -- reset
    · simp [State.stops, hh, hvalid] -- read
    · exact stops_of_undisturbed hu -- completion
    · simp [State.stops, hh] -- acceptance
    · simp [State.stops, hh] -- wait
    · simp [State.stops, hh] -- idle
  · intro hs
    match hh : s.host with
    | .reset :: rest => exact ⟨_, step_reset hh⟩
    | .read :: rest =>
      have hvalid : s.latch.valid = true := by simpa [State.stops, hh] using hs
      exact ⟨_, (step_read hh).trans (hostRead_of_valid rest hvalid)⟩
    | .contend _ _ :: _ => simp [State.stops, hh] at hs
    | [] | .issue _ :: _ | .waitReady :: _ => exact step_of_undisturbed (by simp [State.undisturbed, hh])

/-! ### The flags of each shared operation -/

/-- The flags of an answer against a command's `mayOverflow`, `zeroDivisor` and `isComparison`: DivisionByZero is
exactly `dbz`, Overflow and the truth value need the command's leave (R12, R151, R152). -/
structure Latch.FlagsWithin (l : Latch) (ovf dbz t : Bool) : Prop where
  ovf : l.ovf = true → ovf = true
  dbz : l.dbz = dbz
  t : l.t = true → t = true

theorem flagsWithin_result (tg : Tag) (v : Bus) (ovf t : Bool) : (result tg v).FlagsWithin ovf false t :=
  ⟨nofun, rfl, nofun⟩

theorem flagsWithin_signalOverflow (tg : Tag) (v : Bus) : (signalOverflow tg v).FlagsWithin true false false :=
  ⟨fun _ => rfl, rfl, nofun⟩

theorem flagsWithin_signalDivisionByZero (tg : Tag) (v : Bus) (ovf : Bool) :
    (signalDivisionByZero tg v).FlagsWithin ovf true false :=
  ⟨nofun, rfl, nofun⟩

theorem flagsWithin_compared (b : Bool) : (compared b).FlagsWithin false false true := ⟨nofun, rfl, fun _ => rfl⟩

theorem flagsWithin_renorm (f : Fmt) (t : Triple) : (renorm f t).FlagsWithin true false false :=
  ⟨fun _ => rfl, renorm_dbz f t, by simp⟩

theorem flagsWithin_encInt (z : Int) (unsigned : Bool) : (encInt z unsigned).FlagsWithin true false false := by
  obtain ⟨-, h⟩ | ⟨-, h⟩ | ⟨-, -, h⟩ := encInt_cases z unsigned <;> rw [h]
  · exact flagsWithin_signalOverflow _ _
  · exact flagsWithin_signalOverflow _ _
  · exact flagsWithin_result _ _ _ _

theorem toNat_ne_zero {b : IntBits} (hb : b ≠ 0) : b.toNat ≠ 0 := fun h => hb (BitVec.eq_of_toNat_eq h)

theorem flagsWithin_intDivide (a b : IntBits) :
    (intDivide a b).FlagsWithin true (decide (b.toNat = 0)) false := by
  by_cases hb : b = 0
  · subst hb
    exact flagsWithin_signalDivisionByZero _ _ _
  · rw [intDivide, if_neg hb, decide_eq_false (toNat_ne_zero hb)]
    exact flagsWithin_encInt _ _

theorem flagsWithin_intRemainder (a b : IntBits) :
    (intRemainder a b).FlagsWithin false (decide (b.toNat = 0)) false := by
  by_cases hb : b = 0
  · subst hb
    exact flagsWithin_signalDivisionByZero _ _ _
  · rw [intRemainder, if_neg hb, decide_eq_false (toNat_ne_zero hb)]
    exact flagsWithin_result _ _ _ _

theorem flagsWithin_fadd (p : Params) (f : Fmt) (a b : Bus) : (fadd p f a b).FlagsWithin true false false := by
  obtain h | ⟨-, h⟩ | ⟨-, h⟩ | ⟨t, -, h⟩ := fadd_cases p f a b <;> rw [h]
  · exact flagsWithin_result _ _ _ _
  · exact flagsWithin_result _ _ _ _
  · exact flagsWithin_result _ _ _ _
  · exact flagsWithin_renorm f t

theorem flagsWithin_fmul (p : Params) (f : Fmt) (a b : Bus) : (fmul p f a b).FlagsWithin true false false := by
  obtain h | ⟨t, -, h⟩ := fmul_cases p f a b <;> rw [h]
  · exact flagsWithin_result _ _ _ _
  · exact flagsWithin_renorm f t

/-- R112: a zero divisor, and nothing else, lets FDIV signal DivisionByZero. -/
theorem flagsWithin_fdiv (p : Params) {f : Fmt} (a : Bus) {b : Bus} {dbz : Bool} (hdbz : isZero f b = dbz) :
    (fdiv p f a b).FlagsWithin true dbz false := by
  obtain ⟨hb, h⟩ | ⟨hb, h⟩ | ⟨hb, t, -, h⟩ := fdiv_cases p f a b <;> rw [h, ← hdbz, hb]
  · exact flagsWithin_signalDivisionByZero _ _ _
  · exact flagsWithin_result _ _ _ _
  · exact flagsWithin_renorm f t

theorem flagsWithin_singleToDouble (x : SngBits) : (singleToDouble x).FlagsWithin false false false := by
  cases h : isZero .sng (onBus x)
  · exact singleToDouble_of_nonzero h ▸ flagsWithin_result _ _ _ _
  · exact singleToDouble_of_zero h ▸ flagsWithin_result _ _ _ _

theorem flagsWithin_doubleToSingle (x : DblBits) : (doubleToSingle x).FlagsWithin true false false := by
  obtain h | ⟨h, -⟩ := doubleToSingle_cases x <;> rw [h]
  · exact flagsWithin_result _ _ _ _
  · exact flagsWithin_renorm _ _

/-! ### The flags of each command -/

/-- The test on a float divisor reads its exponent byte, before and after promotion (C1, R134). -/
theorem isZero_onBus (x : SngBits) : isZero .sng (onBus x) = decide (x.toNat / 2 ^ 24 = 0) :=
  Bool.eq_iff_iff.2 ((isZero_onBus_iff x).trans decide_eq_true_iff.symm)

theorem isZero_widen (x : SngBits) : isZero .dbl (widen x) = decide (x.toNat / 2 ^ 24 = 0) := by
  rw [← isZero_onBus, isZero, expb_widen, isZero]

theorem isZero_dbl (x : DblBits) : isZero .dbl x = decide (x.toNat / 2 ^ 56 = 0) :=
  Bool.eq_iff_iff.2 ((isZero_dbl_iff x).trans decide_eq_true_iff.symm)

/-- R12, R151, R152: every command's flags, by the operation it completes with. The equations `exec_…` hold by `rfl`, so
`cases h` puts that operation's latch for `s'.latch`. -/
theorem exec_flagsWithin {i : Instr} {s s' : State} (h : exec i s = .next s') :
    s'.latch.FlagsWithin i.mayOverflow i.zeroDivisor i.isComparison := by
  cases i with
  | iadd | isub | ineg | f2iS | f2iD | f2iuS | f2iuD =>
    cases h
    exact flagsWithin_encInt _ _
  | idiv a b =>
    cases h
    exact flagsWithin_intDivide a b
  | imod a b =>
    cases h
    exact flagsWithin_intRemainder a b
  | faddS | faddSD | faddDS | faddD | fsubS | fsubSD | fsubDS | fsubD =>
    cases h
    exact flagsWithin_fadd _ _ _ _
  | fmulS | fmulSD | fmulDS | fmulD =>
    cases h
    exact flagsWithin_fmul _ _ _ _
  | fdivS a b =>
    cases h
    exact flagsWithin_fdiv _ _ (isZero_onBus b)
  | fdivSD a b =>
    cases h
    exact flagsWithin_fdiv _ _ (isZero_dbl b)
  | fdivDS a b =>
    cases h
    exact flagsWithin_fdiv _ _ (isZero_widen b)
  | fdivD a b =>
    cases h
    exact flagsWithin_fdiv _ _ (isZero_dbl b)
  | igt | ieq | fgtIS | fgtID | fgtSI | fgtS | fgtSD | fgtDI | fgtDS | fgtD | feqIS | feqID | feqSI | feqS | feqSD
  | feqDI | feqDS | feqD =>
    cases h
    exact flagsWithin_compared _
  | i2fS | i2fD =>
    cases h
    exact flagsWithin_result _ _ _ _
  | s2d a =>
    cases h
    exact flagsWithin_singleToDouble a
  | d2s a =>
    cases h
    exact flagsWithin_doubleToSingle a
  | rnrmS | rnrmD =>
    cases h
    exact flagsWithin_renorm _ _

/-- Settles O56: DBZ is the command's zero divisor, and the latch's invariant says what stands under it. -/
theorem divisionByZeroCauses : Obligations.DivisionByZeroCauses := by
  intro i s
  obtain ⟨l, ⟨-, hone, -, -, hshown, -⟩, hexec⟩ := exec_completes i
  obtain ⟨hnotBoth, -⟩ := hone
  obtain ⟨-, hmax, -⟩ := hshown
  have hflags := exec_flagsWithin (hexec s)
  refine ⟨_, hexec s, by rw [hflags.dbz], fun hdbz => ⟨?_, hmax hdbz⟩⟩
  exact Bool.eq_false_iff.2 fun hovf => hnotBoth ⟨hovf, hdbz⟩

/-- Settles O57: both flags need the command's leave. -/
theorem overflowAndTruthCauses : Obligations.OverflowAndTruthCauses := by
  intro i s
  obtain ⟨l, -, hexec⟩ := exec_completes i
  have hflags := exec_flagsWithin (hexec s)
  exact ⟨_, hexec s, hflags.ovf, hflags.t⟩

end Sys2Proof.Machine
end

section
/-! Proofs of the reset and hazard family's statements: a reset, a clash on the port, the acceptance of a command and
its completion. -/

namespace Sys2Proof.Machine

/-- A clash on the port has no meaning, whatever the unit is doing (R176). -/
theorem step_contend {s : State} {t u : Transaction} {rest : List HostInput} (h : s.host = .contend t u :: rest) :
    step s = .refused .portContention := by
  simp only [step, h]

theorem cmdReady_of_idle {s : State} (h : s.inProgress = none) : s.cmdReady = true := by
  simp [State.cmdReady, h]

theorem cmdReady_of_inProgress {s : State} {c : Transaction} (h : s.inProgress = some c) : s.cmdReady = false := by
  simp [State.cmdReady, h]

/-- Settles O5: the next step runs the command in progress, which completes with a valid latch whether or not its word
is legal. -/
theorem acceptedCommandCompletes : Obligations.AcceptedCommandCompletes := by
  intro s c hc hu
  obtain ⟨l, hvalid, -, hrun⟩ := runCommand_completes c
  have hstep : step s = .next (s.complete l) := (step_inProgress hc hu).trans (hrun s)
  exact ⟨cmdReady_of_inProgress hc, s.complete l, hstep, hvalid, complete_inProgress s l, cmdReady_complete s l,
    complete_host s l⟩

/-- Settles O2: `applyReset` keeps nothing of the state it is applied to. -/
theorem resetAbandonsCommand : Obligations.ResetAbandonsCommand :=
  fun _ _ hhost => step_reset hhost

/-- Settles O4: acceptance samples the transaction and leaves the latch. -/
theorem idleUnitAcceptsCommand : Obligations.IdleUnitAcceptsCommand :=
  fun s t rest hidle hhost =>
    ⟨cmdReady_of_idle hidle, s.accept t rest, step_issue_of_idle hidle hhost, accept_inProgress s t rest,
      cmdReady_accept s t rest, accept_latch s t rest, accept_host s t rest⟩

/-- Settles O6: the clash is met before the command in progress is looked at. -/
theorem portContentionIsRefused : Obligations.PortContentionIsRefused :=
  fun _ _ _ _ hhost => step_contend hhost

end Sys2Proof.Machine
end
